-- ==== Sys2Proof/Word.lean ====
section
/-! DEFINITION. The bit-vector types of the basm core: instruction words (R9 `WORD_W`), register and data
bytes (R21), instruction addresses (R27), the program counter (R27) and the load/store offset (R84). -/

namespace Sys2Proof

/-- A 16-bit instruction word (R9 `WORD_W`, R70). -/
abbrev Word := BitVec 16

/-- An 8-bit register, immediate or data-memory byte (R9 `XLEN`, R21, R38). -/
abbrev Byte := BitVec 8

/-- A 10-bit instruction address, [0,1023] (R9 `IADDR_W`, R85). -/
abbrev IAddr := BitVec 10

/-- A value of the 11-bit program counter (R9 `PC_W`, R27). -/
abbrev PcVal := BitVec 11

/-- The 6-bit load/store offset field (R9 `OFF_W`, R84). -/
abbrev Off := BitVec 6

end Sys2Proof
end

