-- ==== Sys2Proof/Syntax.lean ====
section
/-! DEFINITION. The instructions of the basm core: the 16 primary forms of R2, one constructor of `Instr` per
row of spec/opcode_table.json, with their operand kinds (R20, R86, R87). -/

namespace Sys2Proof

/-- The eight general registers (R20). -/
inductive Reg where
  | r0 | r1 | r2 | r3 | r4 | r5 | r6 | r7
deriving DecidableEq, Repr

/-- The four branch conditions (R86). -/
inductive Cond where
  | eq | ne | ge | lt
deriving DecidableEq, Repr

/-- The eight ALU selectors of `bit` (R87). -/
inductive AluSel where
  | or | and | xor | implies | nor | nand | xnor | nimplies
deriving DecidableEq, Repr

/-- The names of the 16 primary forms (R2), which the opcode map numbers (R80). -/
inductive Form where
  | nop | hlt | jmp | brh | cal | ret | pld | pst | mld | mst | ldi | adi | add | sub | bit | rsh
deriving DecidableEq, Repr

/-- The eight instruction formats (R72 to R79). -/
inductive Format where
  | n | j | b | i | m | r | l | s
deriving DecidableEq, Repr

/-- One instruction: a primary form with its operands (R80, R93). -/
inductive Instr where
  /-- `nop` (R112). -/
  | nop
  /-- `hlt` (R113). -/
  | hlt
  /-- `jmp addr` (R114). -/
  | jmp (addr : IAddr)
  /-- `brh cond, addr` (R115). -/
  | brh (cond : Cond) (addr : IAddr)
  /-- `cal addr` (R117). -/
  | cal (addr : IAddr)
  /-- `ret` (R118). -/
  | ret
  /-- `pld ra, port` (R126). -/
  | pld (ra : Reg) (port : Byte)
  /-- `pst ra, port` (R127). -/
  | pst (ra : Reg) (port : Byte)
  /-- `mld ra, rb, off` (R128). -/
  | mld (ra rb : Reg) (off : Off)
  /-- `mst ra, rb, off` (R129). -/
  | mst (ra rb : Reg) (off : Off)
  /-- `ldi ra, imm` (R138). -/
  | ldi (ra : Reg) (imm : Byte)
  /-- `adi ra, imm` (R139). -/
  | adi (ra : Reg) (imm : Byte)
  /-- `add ra, rb, rc` (R140). -/
  | add (ra rb rc : Reg)
  /-- `sub ra, rb, rc` (R141). -/
  | sub (ra rb rc : Reg)
  /-- `bit ra, rb, sel, rc` (R142). -/
  | bit (ra rb : Reg) (sel : AluSel) (rc : Reg)
  /-- `rsh ra, rb` (R145). -/
  | rsh (ra rb : Reg)
deriving DecidableEq, Repr

/-- The primary form of an instruction (R80). -/
def Instr.form : Instr → Form
  | .nop => .nop
  | .hlt => .hlt
  | .jmp _ => .jmp
  | .brh _ _ => .brh
  | .cal _ => .cal
  | .ret => .ret
  | .pld _ _ => .pld
  | .pst _ _ => .pst
  | .mld _ _ _ => .mld
  | .mst _ _ _ => .mst
  | .ldi _ _ => .ldi
  | .adi _ _ => .adi
  | .add _ _ _ => .add
  | .sub _ _ _ => .sub
  | .bit _ _ _ _ => .bit
  | .rsh _ _ => .rsh

/-- The format of each primary form (R72 to R80). -/
def Form.format : Form → Format
  | .nop | .hlt | .ret => .n
  | .jmp | .cal => .j
  | .brh => .b
  | .pld | .pst | .ldi | .adi => .i
  | .mld | .mst => .m
  | .add | .sub => .r
  | .bit => .l
  | .rsh => .s

/-- All 16 primary forms, in the Glossary's order (R2). -/
def Form.all : List Form :=
  [.nop, .hlt, .jmp, .brh, .cal, .ret, .pld, .pst, .mld, .mst, .ldi, .adi, .add, .sub, .bit, .rsh]

end Sys2Proof
end

