-- ==== Sys2Proof/Config.lean ====
section
/-! DEFINITION. The implementation parameters of R9 as types, the two encoding tables of R10 among them. They stand in
`Config`, which State carries (log entry 2). Their decided values are `EncodingTables.standard` in Decode.lean and
`Config.standard` in Machine/Defaults.lean, where a repair may mend them. The last part is two free values of the
assembler (R104). -/

namespace Sys2Proof

/-- `EA_POLICY` (R9): what an effective address outside [0,255] does. -/
inductive EaPolicy where
  /-- The address is taken modulo 256 (R59), the spec's decided default. -/
  | wrap
  /-- The access raises MEM_OUT_OF_RANGE (R60). -/
  | fault
deriving DecidableEq, Repr

/-- `BITWISE_CARRY` (R9): how `bit` reads its operands for the carry (R144). -/
inductive BitwiseCarry where
  /-- As signed integers, so the carry is the result's top bit; the spec's decided default. -/
  | signed
  /-- As unsigned integers, so the carry is the selector's constant. -/
  | unsigned
deriving DecidableEq, Repr

/-- `FIELD_LAYOUT` (R9, R71): the lowest bit of each field; the widths are fixed by the field's type. -/
structure FieldLayout where
  /-- 4 bits: the primary opcode. -/
  op : Nat
  /-- 3 bits: register a. -/
  ra : Nat
  /-- 3 bits: register b. -/
  rb : Nat
  /-- 3 bits: the ALU selector. -/
  sel : Nat
  /-- 3 bits: register c. -/
  rc : Nat
  /-- 6 bits: the offset. -/
  off : Nat
  /-- 8 bits: the immediate or port number. -/
  imm : Nat
  /-- 2 bits: the branch condition. -/
  cond : Nat
  /-- 10 bits: the instruction address. -/
  addr : Nat
deriving DecidableEq, Repr

/-- `OPCODE_MAP` (R9, R80): the primary form of each opcode number, as the list's position. -/
abbrev OpcodeMap := List Form

/-- The record from which the decoder and the encoder take their two tables (R10). -/
structure EncodingTables where
  /-- `OPCODE_MAP` (R80). -/
  opcodeMap : OpcodeMap
  /-- `FIELD_LAYOUT` (R71). -/
  layout : FieldLayout
deriving DecidableEq, Repr

/-- The parameters of R9 that a session of the core fixes and no step changes. -/
structure Config where
  /-- `STACK_DEPTH` (R34): `none` is the source's unbounded stack, `some n` a stack of `n` entries. -/
  stackDepth : Option Nat
  /-- `EA_POLICY` (R58 to R60). -/
  eaPolicy : EaPolicy
  /-- `BITWISE_CARRY` (R144). -/
  bitwiseCarry : BitwiseCarry
  /-- `LINE_W` (R42): the width in bits of a debug line number. -/
  lineWidth : Nat
  /-- `OPCODE_MAP` and `FIELD_LAYOUT` (R10): the tables the core decodes by. -/
  tables : EncodingTables
deriving DecidableEq, Repr

/-- Free words of the message that a failed assembly run prints for this path and source: those before and those after
the token that an operand error names. R104 prints a message and gives no wording (DESIGN CHOICE, log entry 17; safe:
nothing constrains them). -/
opaque Config.messageWords (path source : String) : String × String

/-- Free exit status of an assembly run that succeeds: R104 gives only that of a failed one (DESIGN CHOICE, log entry 17;
safe: nothing constrains it). -/
opaque Config.successStatus (path source : String) : Nat

/-- `IMAGE_MAX` (R9): the capacity of the program image, in words. -/
abbrev imageMax : Nat := 1024

/-- `DMEM_SIZE` (R9): the size of the data memory, in bytes. -/
abbrev dmemSize : Nat := 256

end Sys2Proof
end

