-- ==== Sys2Proof/WellFormed.lean ====
section
/-! DEFINITION. Well-formedness. R89: the ISA has no reserved or illegal encoding and every field value is
legal, so the operand types of `Instr` already carry every bound and each instruction is well formed. What the
spec does bound is checked here: the assembler's operand values (R94, R96 to R98), the parameters (R9) and the
two encoding tables (R71 to R80). -/

namespace Sys2Proof

/-- R89: every register index, selector, condition, immediate, offset and address has a meaning, so no
instruction is ill formed. -/
def Instr.wellFormed : Instr → Bool
  | .nop | .hlt | .ret => true
  | .jmp _ | .cal _ | .brh _ _ => true
  | .pld _ _ | .pst _ _ | .ldi _ _ | .adi _ _ => true
  | .mld _ _ _ | .mst _ _ _ => true
  | .add _ _ _ | .sub _ _ _ | .bit _ _ _ _ | .rsh _ _ => true

/-- R94: a register operand's number is below 8. -/
def registerNumberOk (n : Nat) : Bool := decide (n < 8)

/-- R96: an immediate or port operand lies in [-128,255]. -/
def immediateOk (v : Int) : Bool := decide (-128 ≤ v) && decide (v ≤ 255)

/-- R97: an offset operand lies in [-32,31]. -/
def offsetOk (v : Int) : Bool := decide (-32 ≤ v) && decide (v ≤ 31)

/-- R98: an address operand lies in [0,1023]. -/
def addressOk (v : Int) : Bool := decide (0 ≤ v) && decide (v ≤ 1023)

/-- The fields a format uses, as (lowest bit, width) (R72 to R79). -/
def FieldLayout.used (l : FieldLayout) : Format → List (Nat × Nat)
  | .n => [(l.op, 4)]
  | .j => [(l.op, 4), (l.addr, 10)]
  | .b => [(l.op, 4), (l.cond, 2), (l.addr, 10)]
  | .i => [(l.op, 4), (l.ra, 3), (l.imm, 8)]
  | .m => [(l.op, 4), (l.ra, 3), (l.rb, 3), (l.off, 6)]
  | .r => [(l.op, 4), (l.ra, 3), (l.rb, 3), (l.rc, 3)]
  | .l => [(l.op, 4), (l.ra, 3), (l.rb, 3), (l.sel, 3), (l.rc, 3)]
  | .s => [(l.op, 4), (l.ra, 3), (l.rb, 3)]

/-- R71: the opcode is bits [15:12], every field lies inside the word, and the fields a format uses do not
overlap. -/
def FieldLayout.wf (l : FieldLayout) : Bool :=
  decide (l.op = 12) &&
  [Format.n, .j, .b, .i, .m, .r, .l, .s].all fun f =>
    (l.used f).all (fun p => decide (p.1 + p.2 ≤ 16)) &&
    decide ((l.used f).Pairwise fun p q => p.1 + p.2 ≤ q.1 ∨ q.1 + q.2 ≤ p.1)

/-- R80: each of the 16 opcode numbers names one primary form, and every form has a number. -/
def opcodeMapOk (m : OpcodeMap) : Bool :=
  decide (m.length = 16) && Form.all.all fun f => decide (f ∈ m)

/-- Two tables that an encoding of the ISA may have (R71, R80). -/
def EncodingTables.wf (t : EncodingTables) : Bool := opcodeMapOk t.opcodeMap && t.layout.wf

/-- Legal parameters: `STACK_DEPTH` is a positive integer or unbounded (R9), and the tables are well formed. -/
def Config.wf (c : Config) : Bool := decide (c.stackDepth ≠ some 0) && c.tables.wf

end Sys2Proof
end

