-- ==== Sys2Proof/Decode.lean ====
section
/-! DEFINITION. The decoder DEC (R81 to R90) and the encoder (R71 to R80). Both take their
tables as an argument (R10): a step decodes by those of `State.config`; `decodeWord` and `encodeWord` use the spec's
decided defaults (D1, D2). -/

namespace Sys2Proof

/-! ## The two encoding tables -/

/-- `FIELD_LAYOUT`, the spec's decided default (R71, D2; log entry 6: unsafe for the original toolchain's words). -/
def FieldLayout.standard : FieldLayout :=
  { op := 12, ra := 9, rb := 6, sel := 3, rc := 0, off := 0, imm := 0, cond := 10, addr := 0 }

/-- `OPCODE_MAP`, the decided default: the Glossary's order, 0 to 15 (R80, D1; log entry 6: unsafe for
the original toolchain's words). -/
def standardOpcodeMap : OpcodeMap :=
  [.nop, .hlt, .jmp, .brh, .cal, .ret, .pld, .pst, .mld, .mst, .ldi, .adi, .add, .sub, .bit, .rsh]

/-- The decided default tables (D1, D2; log entry 6). -/
def EncodingTables.standard : EncodingTables := { opcodeMap := standardOpcodeMap, layout := FieldLayout.standard }

/-! ## Codes of the operand kinds -/

/-- A 3-bit register field names r0 to r7 (R82). -/
def Reg.ofBits (v : BitVec 3) : Reg :=
  match v.toNat with
  | 0 => .r0 | 1 => .r1 | 2 => .r2 | 3 => .r3 | 4 => .r4 | 5 => .r5 | 6 => .r6 | _ => .r7

/-- The 3-bit code of a register (R82, R94). -/
def Reg.toBits : Reg → BitVec 3
  | .r0 => 0 | .r1 => 1 | .r2 => 2 | .r3 => 3 | .r4 => 4 | .r5 => 5 | .r6 => 6 | .r7 => 7

/-- A 2-bit condition field (R86). -/
def Cond.ofBits (v : BitVec 2) : Cond :=
  match v.toNat with
  | 0 => .eq | 1 => .ne | 2 => .ge | _ => .lt

/-- The 2-bit code of a condition (R86). -/
def Cond.toBits : Cond → BitVec 2
  | .eq => 0 | .ne => 1 | .ge => 2 | .lt => 3

/-- A 3-bit ALU selector field (R87). -/
def AluSel.ofBits (v : BitVec 3) : AluSel :=
  match v.toNat with
  | 0 => .or | 1 => .and | 2 => .xor | 3 => .implies | 4 => .nor | 5 => .nand | 6 => .xnor | _ => .nimplies

/-- The 3-bit code of an ALU selector (R87). -/
def AluSel.toBits : AluSel → BitVec 3
  | .or => 0 | .and => 1 | .xor => 2 | .implies => 3 | .nor => 4 | .nand => 5 | .xnor => 6 | .nimplies => 7

/-! ## The decoder -/

/-- The `n`-bit field of `w` whose lowest bit is `lo`. -/
def fieldAt (lo n : Nat) (w : Word) : BitVec n := w.extractLsb' lo n

/-- All the fields of a word, extracted at once whatever the opcode (R81). -/
structure Fields where
  op : BitVec 4
  ra : BitVec 3
  rb : BitVec 3
  sel : BitVec 3
  rc : BitVec 3
  off : Off
  imm : Byte
  cond : BitVec 2
  addr : IAddr
deriving DecidableEq, Repr

/-- Every field of R71, read from one word. -/
def decodeFields (l : FieldLayout) (w : Word) : Fields :=
  { op := fieldAt l.op 4 w, ra := fieldAt l.ra 3 w, rb := fieldAt l.rb 3 w, sel := fieldAt l.sel 3 w,
    rc := fieldAt l.rc 3 w, off := fieldAt l.off 6 w, imm := fieldAt l.imm 8 w,
    cond := fieldAt l.cond 2 w, addr := fieldAt l.addr 10 w }

/-- Why bytes or a word are no instruction. -/
inductive DecodeError where
  /-- Fewer than the two bytes of a word are left (R70). -/
  | truncated
  /-- The opcode is not in the opcode map (R154 UNKNOWN_OPCODE; never under a well-formed map, R89). -/
  | unknownOpcode
deriving DecidableEq, Repr

/-- The instruction of a form with its operands taken from the fields its format uses (R72 to R79, R93). -/
def Form.instr (f : Form) (x : Fields) : Instr :=
  match f with
  | .nop => .nop
  | .hlt => .hlt
  | .jmp => .jmp x.addr
  | .brh => .brh (Cond.ofBits x.cond) x.addr
  | .cal => .cal x.addr
  | .ret => .ret
  | .pld => .pld (Reg.ofBits x.ra) x.imm
  | .pst => .pst (Reg.ofBits x.ra) x.imm
  | .mld => .mld (Reg.ofBits x.ra) (Reg.ofBits x.rb) x.off
  | .mst => .mst (Reg.ofBits x.ra) (Reg.ofBits x.rb) x.off
  | .ldi => .ldi (Reg.ofBits x.ra) x.imm
  | .adi => .adi (Reg.ofBits x.ra) x.imm
  | .add => .add (Reg.ofBits x.ra) (Reg.ofBits x.rb) (Reg.ofBits x.rc)
  | .sub => .sub (Reg.ofBits x.ra) (Reg.ofBits x.rb) (Reg.ofBits x.rc)
  | .bit => .bit (Reg.ofBits x.ra) (Reg.ofBits x.rb) (AluSel.ofBits x.sel) (Reg.ofBits x.rc)
  | .rsh => .rsh (Reg.ofBits x.ra) (Reg.ofBits x.rb)

/-- Decoding under an encoding's tables: the fields first, then the form by opcode alone (R81). -/
def decodeWith (t : EncodingTables) (w : Word) : Except DecodeError Instr :=
  let x := decodeFields t.layout w
  match t.opcodeMap[x.op.toNat]? with
  | some f => .ok (f.instr x)
  | none => .error .unknownOpcode

/-- The decoder of the basm core (R81) under the default tables. -/
def decodeWord (w : Word) : Except DecodeError Instr := decodeWith EncodingTables.standard w

/-- A word from its two bytes, the more significant first (R54). -/
def wordOfBytes (hi lo : Byte) : Word := hi ++ lo

/-- The two bytes of a word, the more significant first (R54). -/
def bytesOfWord (w : Word) : List Byte := [w.extractLsb' 8 8, w.extractLsb' 0 8]

/-- The first instruction of a byte string in the image's byte order, with the bytes after it (R54, R70). -/
def decodeBytes (t : EncodingTables) : List Byte → Except DecodeError (Instr × List Byte)
  | hi :: lo :: rest =>
    match decodeWith t (wordOfBytes hi lo) with
    | .ok i => .ok (i, rest)
    | .error e => .error e
  | _ => .error .truncated

/-- The instruction the decoder reads from an opcode-table row's bits `w`, of which the table gives `nbits`
(bit 0 is the word's least significant bit; every bit above is 0), under the default tables. -/
def decodeTableWord (nbits w : Nat) : Option Instr :=
  match decodeBytes EncodingTables.standard (bytesOfWord (BitVec.ofNat 16 (w % 2 ^ nbits))) with
  | .ok (i, _) => some i
  | .error _ => none

/-! ## The encoder -/

/-- A field's value at its place in an otherwise zero word. -/
def placeField (lo : Nat) {n : Nat} (v : BitVec n) : Word := v.setWidth 16 <<< lo

/-- The opcode number of a form under an opcode map (R80). -/
def Form.opcodeIn (m : OpcodeMap) (f : Form) : BitVec 4 := BitVec.ofNat 4 (m.idxOf f)

/-- The operand fields of an instruction in an otherwise zero word; the bits its format ignores are zero (R72 to R79,
R88). -/
def Instr.operandWord (l : FieldLayout) (i : Instr) : Word :=
  match i with
  | .nop | .hlt | .ret => 0
  | .jmp a | .cal a => placeField l.addr a
  | .brh c a => placeField l.cond c.toBits ||| placeField l.addr a
  | .pld ra v | .pst ra v | .ldi ra v | .adi ra v => placeField l.ra ra.toBits ||| placeField l.imm v
  | .mld ra rb o | .mst ra rb o =>
    placeField l.ra ra.toBits ||| placeField l.rb rb.toBits ||| placeField l.off o
  | .add ra rb rc | .sub ra rb rc =>
    placeField l.ra ra.toBits ||| placeField l.rb rb.toBits ||| placeField l.rc rc.toBits
  | .bit ra rb sel rc =>
    placeField l.ra ra.toBits ||| placeField l.rb rb.toBits ||| placeField l.sel sel.toBits |||
      placeField l.rc rc.toBits
  | .rsh ra rb => placeField l.ra ra.toBits ||| placeField l.rb rb.toBits

/-- The word of an instruction under an encoding's tables (R71 to R80). -/
def encodeWith (t : EncodingTables) (i : Instr) : Word :=
  placeField t.layout.op (i.form.opcodeIn t.opcodeMap) ||| i.operandWord t.layout

/-- The canonical word of an instruction under the default tables (R72 to R80). -/
def encodeWord (i : Instr) : Word := encodeWith EncodingTables.standard i

/-- The words of an instruction: always exactly one (R70). -/
def encode (i : Instr) : List Word := [encodeWord i]

/-- The `n` bits of a word from bit `lo` up, as a mask. -/
def fieldMask (lo n : Nat) : Word := placeField lo (BitVec.allOnes n)

/-- The bits of a word that a format uses under a field layout; the others are ignored (R72 to R79, R88). -/
def Format.usedBits (f : Format) (l : FieldLayout) : Word :=
  (l.used f).foldr (fun p m => fieldMask p.1 p.2 ||| m) 0

end Sys2Proof
end

