-- ==== Sys2Proof/Machine/Operands.lean ====
section
/-! DEFINITION. The readings of registers and fields as integers (R11, R23), and the address unit AGU (R58 to R60). -/

namespace Sys2Proof.Machine

/-- The two's-complement reading of a byte, in [-128,127] (R11). -/
def s8 (v : Byte) : Int := v.toInt

/-- The unsigned reading of a byte, in [0,255] (R11). -/
def u8 (v : Byte) : Nat := v.toNat

/-- The two's-complement reading of an offset field, in [-32,31] (R11, R84). -/
def s6 (v : Off) : Int := v.toInt

/-- An integer modulo 256, as a byte (R11). -/
def trunc8 (n : Int) : Byte := BitVec.ofInt 8 n

/-- The raw effective address: unsigned base plus signed offset (R58, D20). -/
def rawEa (base : Byte) (off : Off) : Int := u8 base + s6 off

/-- Whether a raw effective address lies in the data memory (R60). -/
def eaInRange (raw : Int) : Bool := decide (0 ≤ raw) && decide (raw ≤ 255)

/-- The effective address under a policy (R59, R60); `none` where the access raises MEM_OUT_OF_RANGE. -/
def effectiveAddress (p : EaPolicy) (base : Byte) (off : Off) : Option Byte :=
  match p with
  | .wrap => some (trunc8 (rawEa base off))
  | .fault => if eaInRange (rawEa base off) then some (trunc8 (rawEa base off)) else none

end Sys2Proof.Machine
end

