-- ==== Sys2Proof/Machine/Flags.lean ====
section
/-! DEFINITION. The flag logic of the execute unit (R136, R137, R144), the selector functions of `bit` (R143) and the
branch conditions (R116). -/

namespace Sys2Proof.Machine

/-- The zero flag of an exact result: set iff its truncation is 0x00 (R136). -/
def zeroFlag (raw : Int) : Bool := decide (trunc8 raw = 0)

/-- The carry flag of an exact result: set iff it is negative before truncation (R137). -/
def carryFlag (raw : Int) : Bool := decide (raw < 0)

/-- The selector functions over one bit position (R143, D6). -/
def selectBit (sel : AluSel) (p q : Bool) : Bool :=
  match sel with
  | .or => p || q
  | .and => p && q
  | .xor => xor p q
  | .implies => !p || q
  | .nor => !(p || q)
  | .nand => !(p && q)
  | .xnor => !(xor p q)
  | .nimplies => p && !q

/-- The selector functions over bit vectors, applied to each bit position (R142, R143). -/
def selectVec {n : Nat} (sel : AluSel) (p q : BitVec n) : BitVec n :=
  match sel with
  | .or => p ||| q
  | .and => p &&& q
  | .xor => p ^^^ q
  | .implies => ~~~p ||| q
  | .nor => ~~~(p ||| q)
  | .nand => ~~~(p &&& q)
  | .xnor => ~~~(p ^^^ q)
  | .nimplies => p &&& ~~~q

/-- K_sel = F(0,0): the selector's value in every bit above an unsigned operand (R143). -/
def kSel (sel : AluSel) : Bool := selectBit sel false false

/-- The carry of `bit` under a reading of its operands (R144). -/
def bitCarry (p : BitwiseCarry) (sel : AluSel) (res : Byte) : Bool :=
  match p with
  | .signed => res.msb
  | .unsigned => kSel sel

/-- Whether a branch condition holds of the flags (R116). -/
def condHolds (cond : Cond) (z c : Bool) : Bool :=
  match cond with
  | .eq => z
  | .ne => !z
  | .ge => !c
  | .lt => c

end Sys2Proof.Machine
end

