-- ==== Sys2Proof/Machine/Defaults.lean ====
section
/-! DEFINITION. The values of the parameters of R9 in the reset state. They stand here, not in Config.lean, so that a
repair may mend them. Log entries 2 to 6. -/

namespace Sys2Proof

/-- The parameters of the reset state: the spec's decided defaults `wrap` (R59, D8) and
`signed` (R144, D7; log entry 5), the
source's unbounded stack for the OPEN `STACK_DEPTH` (R34; DESIGN CHOICE, log entry 3; unsafe), 16 bits for
the OPEN `LINE_W` (R42; DESIGN CHOICE, log entry 4; safe), and the decided encoding tables (D1, D2; log entry 6). -/
def Config.standard : Config :=
  { stackDepth := none, eaPolicy := .wrap, bitwiseCarry := .signed, lineWidth := 16,
    tables := EncodingTables.standard }

end Sys2Proof
end

