-- ==== Sys2Proof/Machine/Store.lean ====
section
/-! DEFINITION. A sparse array of plain data: a list of (address, value) pairs in one canonical form, with every
unlisted address reading as a default. The data memory (R38), the program image ROM (R37) and the debug
correlator ROM (R42) are held in it. -/

namespace Sys2Proof.Machine

/-- The listed entries of a sparse array. -/
abbrev Store (α : Type) := List (Nat × α)

/-- What address `a` holds; `d` where nothing is listed. -/
def Store.get {α : Type} (d : α) : Store α → Nat → α
  | [], _ => d
  | (k, v) :: m, a => if k = a then v else Store.get d m a

/-- `m` without any entry for address `a`. -/
def Store.erase {α : Type} (m : Store α) (a : Nat) : Store α := m.filter fun e => decide (e.1 ≠ a)

/-- `m` with an entry for `a`, placed before the first higher address. -/
def Store.place {α : Type} (a : Nat) (v : α) : Store α → Store α
  | [] => [(a, v)]
  | (k, w) :: m => if a < k then (a, v) :: (k, w) :: m else (k, w) :: Store.place a v m

/-- `m` after writing `v` at `a`: writing the default removes the entry, so that equal arrays are equal lists. -/
def Store.set {α : Type} [DecidableEq α] (d : α) (m : Store α) (a : Nat) (v : α) : Store α :=
  if v = d then m.erase a else Store.place a v (m.erase a)

/-- The canonical form: addresses strictly rising and below `bound`, and no entry equal to the default. -/
def Store.wf {α : Type} [DecidableEq α] (d : α) (bound : Nat) (m : Store α) : Bool :=
  decide (m.Pairwise fun e f => e.1 < f.1) && m.all fun e => decide (e.1 < bound) && decide (e.2 ≠ d)

end Sys2Proof.Machine
end

