-- ==== Sys2Proof/Machine/State.lean ====
section
/-! DEFINITION. The state of the basm core (R43), its step outcomes (R150) and its state after reset (R170). -/

namespace Sys2Proof.Machine

/-- The synchronous errors of a step (R154). Each is reported on the status latches with no other change of
state (R151), so each is a next state of the model and none is a `Fault` (DEDUCED, log entry 1). -/
inductive StepError where
  /-- The opcode is not one of the 16; impossible under a well-formed map (R89, R154). -/
  | unknownOpcode
  /-- `pld` or `pst` (R126, R127). -/
  | notImplemented
  /-- `ret` with an empty call stack (R118). -/
  | stackUnderflow
  /-- `cal` with a full call stack (R117). -/
  | stackOverflow
  /-- A fetch at pc ≥ IMAGE_LEN (R31). -/
  | fetchOutOfImage
  /-- `mld` or `mst` out of range under `EA_POLICY = fault` (R60). -/
  | memOutOfRange
  /-- A step while halted (R153). -/
  | stepWhileHalted
deriving DecidableEq, Repr

/-- The outcome of the last step or reset, as the `status` latch holds it (R41, R150). -/
inductive Status where
  /-- A step completed and was not `hlt`. -/
  | ok
  /-- `hlt` completed. -/
  | halted
  /-- A step ended in an error. -/
  | error (e : StepError)
  /-- The last event was a reset. -/
  | reset
deriving DecidableEq, Repr

/-- The stored registers r1 to r7; r0 is hardwired to zero and has no storage (R20, R22). -/
structure RegFile where
  r1 : Byte
  r2 : Byte
  r3 : Byte
  r4 : Byte
  r5 : Byte
  r6 : Byte
  r7 : Byte
deriving DecidableEq, Repr

/-- The data memory DMEM: bytes at addresses 0 to 255, an unlisted byte reading as its reset value 0x00
(R38, R43). -/
abbrev Memory := List Host.Cell

/-- The canonical form of the data memory: addresses strictly rising and below 256, no entry 0x00. -/
def Memory.wf (m : Memory) : Bool := Store.wf (0 : Byte) dmemSize m

/-- The program image ROM IMEM: words at addresses 0 to 1023 (R37). An unlisted word is held as 0x0000
(DESIGN CHOICE, log entry 9; safe: whether an address can be fetched is decided by IMAGE_LEN alone, R31). -/
abbrev ImageRom := Store Word

/-- The debug correlator ROM DBG: a listed address has valid = 1 and the listed line (R42). -/
abbrev DebugRom := Store (Option Nat)

/-- The complete state of the block (R43), with the parameters of R9. -/
structure State where
  /-- The implementation parameters (R9), which no step changes. DESIGN CHOICE, log entry 2; safe: every statement holds
  for every value of them. -/
  config : Config
  /-- r1 to r7 (R20 to R22). -/
  regs : RegFile
  /-- The program counter, legal values 0 to 1024 (R27). -/
  pc : PcVal
  /-- The zero flag (R32). -/
  z : Bool
  /-- The carry flag (R32). -/
  c : Bool
  /-- The call stack, its top first; the depth d is the length (R34; DEDUCED, log entry 14; safe). -/
  stack : List IAddr
  /-- The Halted bit (R36). -/
  halted : Bool
  /-- The data memory (R38). -/
  dmem : Memory
  /-- The status latch (R41). -/
  status : Status
  /-- The error-pc latch (R41). -/
  errPc : PcVal
  /-- The program image ROM (R37). -/
  imem : ImageRom
  /-- IMAGE_LEN, 0 to 1024 (R9, R37). -/
  imageLen : Fin 1025
  /-- The debug correlator ROM (R42). -/
  dbg : DebugRom
deriving DecidableEq, Repr

/-- Why a step stops with no next state. There is no such reason: the spec gives every step an outcome on the
status latches (R110, R150, R155), which the model takes as a next state (DEDUCED, log entry 1; unsafe where a claim reads 'a next state' as 'no error'). -/
inductive Fault
deriving DecidableEq, Repr

/-- Why an instruction has no meaning here. -/
inductive Refusal where
  /-- Raised by an arm of `exec` whose instruction has no meaning yet; safe. No arm raises it: all 16 rows are
  modelled. -/
  | notModelled (mnemonic : String)
deriving DecidableEq, Repr

/-- The machine right after reset with no image loaded (R43, R170): IMAGE_LEN is 0 and IMEM and DBG are empty
(DESIGN CHOICE, log entry 7; safe). The other values are R43's own (decision D13, log entry 15). -/
def State.reset : State :=
  { config := Config.standard
    regs := { r1 := 0, r2 := 0, r3 := 0, r4 := 0, r5 := 0, r6 := 0, r7 := 0 }
    pc := 0
    z := false
    c := false
    stack := []
    halted := false
    dmem := []
    status := .reset
    errPc := 0
    imem := []
    imageLen := 0
    dbg := [] }

end Sys2Proof.Machine
end

