-- ==== Sys2Proof/Machine/Ops.lean ====
section
/-! DEFINITION. The named operations over the state: the register file (R20 to R24), the data memory (R52), the call
stack unit STK (R119), completing a step (R110), raising an error (R151, R152) and the execute unit's write-back
(R135). There is no return from an error and no handler: R156 and R157 say that neither exists. -/

namespace Sys2Proof.Machine

/-! ## Register file -/

/-- The value of a register; r0 reads 0x00 (R22). -/
def RegFile.read (f : RegFile) : Reg → Byte
  | .r0 => 0
  | .r1 => f.r1
  | .r2 => f.r2
  | .r3 => f.r3
  | .r4 => f.r4
  | .r5 => f.r5
  | .r6 => f.r6
  | .r7 => f.r7

/-- The register file after a write; a write to r0 is discarded (R22). -/
def RegFile.write (f : RegFile) (r : Reg) (v : Byte) : RegFile :=
  match r with
  | .r0 => f
  | .r1 => { f with r1 := v }
  | .r2 => { f with r2 := v }
  | .r3 => { f with r3 := v }
  | .r4 => { f with r4 := v }
  | .r5 => { f with r5 := v }
  | .r6 => { f with r6 := v }
  | .r7 => { f with r7 := v }

/-- `x[r]` (R11). -/
def State.reg (s : State) (r : Reg) : Byte := s.regs.read r

/-- `x[r] <- v` (R11, R22). -/
def State.setReg (s : State) (r : Reg) (v : Byte) : State := { s with regs := s.regs.write r v }

/-- Both flags written at once (R33). -/
def State.setFlags (s : State) (z c : Bool) : State := { s with z := z, c := c }

/-! ## Data memory -/

/-- `MemRead(a, 1)` (R11, R52). -/
def Memory.read (m : Memory) (a : Byte) : Byte := Store.get (0 : Byte) m a.toNat

/-- `MemWrite(a, 1, v)` (R11, R52), keeping the canonical form. -/
def Memory.write (m : Memory) (a v : Byte) : Memory := Store.set (0 : Byte) m a.toNat v

/-- One byte of data memory. -/
def State.memRead (s : State) (a : Byte) : Byte := Memory.read s.dmem a

/-- The state after a byte store. -/
def State.memWrite (s : State) (a v : Byte) : State := { s with dmem := Memory.write s.dmem a v }

/-! ## Program counter -/

/-- `pc <- target` for a 10-bit target (R29). -/
def State.jump (s : State) (a : IAddr) : State := { s with pc := a.setWidth 11 }

/-- `pc <- pc + 1` (R29, R31). -/
def State.advance (s : State) : State := { s with pc := s.pc + 1 }

/-- The 10-bit instruction address that `cal` saves (R117; for a pc above 1023, which no step has there, its
low bits: DESIGN CHOICE, log entry 10; safe). -/
def State.ownAddress (s : State) : IAddr := s.pc.setWidth 10

/-! ## Call stack unit -/

/-- A command to the stack unit (R119). -/
inductive StackCommand where
  | none
  | push (v : IAddr)
  | pop
deriving DecidableEq, Repr

/-- The answer of the stack unit (R119). -/
inductive StackAnswer where
  /-- No command was given. -/
  | idle
  /-- A push went through. -/
  | pushed
  /-- A pop went through and gave the old top. -/
  | popped (top : IAddr)
  /-- A push onto a full stack. -/
  | overflow
  /-- A pop of an empty stack. -/
  | underflow
deriving DecidableEq, Repr

/-- Whether a stack of `d` entries is at its capacity; never when the capacity is unbounded (R34). A stack
above its capacity, which no run reaches, counts as full (DEDUCED, log entry 16; safe). -/
def stackFull (depth : Option Nat) (d : Nat) : Bool :=
  match depth with
  | Option.none => false
  | some n => decide (n ≤ d)

/-- One move of the stack unit: the next contents and the answer (R119). -/
def stackUnit (depth : Option Nat) (stk : List IAddr) (cmd : StackCommand) : List IAddr × StackAnswer :=
  match cmd with
  | .none => (stk, .idle)
  | .push v => if stackFull depth stk.length then (stk, .overflow) else (v :: stk, .pushed)
  | .pop =>
    match stk with
    | [] => ([], .underflow)
    | v :: rest => (rest, .popped v)

/-! ## Ending a step -/

/-- The latches after a step that completes (R110): the status, and err_pc 0. -/
def State.latch (s : State) (st : Status) : State := { s with status := st, errPc := 0 }

/-- A step that completes with status OK. -/
def complete (s : State) : Host.Outcome State Fault Refusal := .next (s.latch .ok)

/-- `raise E(pc)`: the status names the error, err_pc is the pc, and nothing else changes (R110, R151, R152).
DEDUCED, log entry 1. -/
def State.raise (s : State) (e : StepError) : State := { s with status := .error e, errPc := s.pc }

/-- A step that ends in an error. -/
def raiseError (e : StepError) (s : State) : Host.Outcome State Fault Refusal := .next (s.raise e)

/-! ## Execute unit -/

/-- What the execute unit forms: a write-back value and, for the flag writers, a new flag pair (R135). -/
structure WriteBack where
  value : Byte
  flags : Option (Bool × Bool)
deriving DecidableEq, Repr

/-- The write-back of an exact arithmetic result: its truncation, Z and C (R135 to R137). -/
def arithmetic (raw : Int) : WriteBack := { value := trunc8 raw, flags := some (zeroFlag raw, carryFlag raw) }

/-- The write-back of a value that leaves the flags unchanged (R135). -/
def plain (v : Byte) : WriteBack := { value := v, flags := none }

/-- The write-back of a bitwise function (R142, R144). -/
def bitwise (p : BitwiseCarry) (sel : AluSel) (x y : Byte) : WriteBack :=
  let res := selectVec sel x y
  { value := res, flags := some (decide (res = 0), bitCarry p sel res) }

/-- The flags after a write-back. -/
def State.applyFlags (s : State) : Option (Bool × Bool) → State
  | none => s
  | some (z, c) => s.setFlags z c

/-- The completing step that writes back to `ra` (R135): the register, the flags if any, then the pc. -/
def writeBack (ra : Reg) (w : WriteBack) (s : State) : Host.Outcome State Fault Refusal :=
  complete ((s.setReg ra w.value).applyFlags w.flags).advance

/-! ## Status codes -/

/-- The 4-bit code of each step error (R150). -/
def StepError.code : StepError → BitVec 4
  | .unknownOpcode => 0x2
  | .notImplemented => 0x3
  | .stackUnderflow => 0x4
  | .stackOverflow => 0x5
  | .fetchOutOfImage => 0x6
  | .memOutOfRange => 0x7
  | .stepWhileHalted => 0x8

/-- The 4-bit `status` output (R15, R150). -/
def Status.code : Status → BitVec 4
  | .ok => 0x0
  | .halted => 0x1
  | .error e => e.code
  | .reset => 0xF

/-- Whether a status is an error code (R150). -/
def Status.isError : Status → Bool
  | .error _ => true
  | _ => false

end Sys2Proof.Machine
end

