-- ==== Sys2Proof/Machine/Alu.lean ====
section
/-! DEFINITION. The meanings of ldi, adi, add, sub, bit and rsh (R138 to R145). Each forms its write-back from the state
before the step, so a source that is also the destination reads the old value (R12). -/

namespace Sys2Proof.Machine

/-- `ldi ra, imm` (R138). -/
def execLdi (ra : Reg) (imm : Byte) (s : State) : Host.Outcome State Fault Refusal :=
  writeBack ra (plain imm) s

/-- `adi ra, imm` (R139): the immediate is read signed. -/
def execAdi (ra : Reg) (imm : Byte) (s : State) : Host.Outcome State Fault Refusal :=
  writeBack ra (arithmetic (s8 (s.reg ra) + s8 imm)) s

/-- `add ra, rb, rc` (R140). -/
def execAdd (ra rb rc : Reg) (s : State) : Host.Outcome State Fault Refusal :=
  writeBack ra (arithmetic (s8 (s.reg rb) + s8 (s.reg rc))) s

/-- `sub ra, rb, rc` (R141): first source minus second source. -/
def execSub (ra rb rc : Reg) (s : State) : Host.Outcome State Fault Refusal :=
  writeBack ra (arithmetic (s8 (s.reg rb) - s8 (s.reg rc))) s

/-- `bit ra, rb, sel, rc` (R142 to R144). -/
def execBit (ra rb : Reg) (sel : AluSel) (rc : Reg) (s : State) : Host.Outcome State Fault Refusal :=
  writeBack ra (bitwise s.config.bitwiseCarry sel (s.reg rb) (s.reg rc)) s

/-- `rsh ra, rb` (R145): the unsigned reading halved and rounded down. -/
def execRsh (ra rb : Reg) (s : State) : Host.Outcome State Fault Refusal :=
  writeBack ra (plain (BitVec.ofNat 8 (u8 (s.reg rb) / 2))) s

end Sys2Proof.Machine
end

