-- ==== Sys2Proof/Machine/Control.lean ====
section
/-! DEFINITION. The meanings of nop, hlt, jmp, brh, cal and ret (R112 to R118). -/

namespace Sys2Proof.Machine

/-- `nop` (R112). -/
def execNop (s : State) : Host.Outcome State Fault Refusal := complete s.advance

/-- `hlt` (R113): the pc stays at the hlt. -/
def execHlt (s : State) : Host.Outcome State Fault Refusal := .next ({ s with halted := true }.latch .halted)

/-- `jmp addr` (R114). -/
def execJmp (addr : IAddr) (s : State) : Host.Outcome State Fault Refusal := complete (s.jump addr)

/-- `brh cond, addr` (R115, R116). -/
def execBrh (cond : Cond) (addr : IAddr) (s : State) : Host.Outcome State Fault Refusal :=
  complete (if condHolds cond s.z s.c then s.jump addr else s.advance)

/-- `cal addr` (R117): the cal's own address is saved; a full stack raises STACK_OVERFLOW. -/
def execCal (addr : IAddr) (s : State) : Host.Outcome State Fault Refusal :=
  match stackUnit s.config.stackDepth s.stack (.push s.ownAddress) with
  | (_, .overflow) => raiseError .stackOverflow s
  | (stk, _) => complete ({ s with stack := stk }.jump addr)

/-- `ret` (R118): one past the saved address; an empty stack raises STACK_UNDERFLOW. -/
def execRet (s : State) : Host.Outcome State Fault Refusal :=
  match stackUnit s.config.stackDepth s.stack .pop with
  | (stk, .popped v) => complete ({ s with stack := stk }.jump v).advance
  | _ => raiseError .stackUnderflow s

end Sys2Proof.Machine
end

