-- ==== Sys2Proof/Machine/PortMemory.lean ====
section
/-! DEFINITION. The meanings of pld, pst, mld and mst (R126 to R130). -/

namespace Sys2Proof.Machine

/-- `pld ra, port` (R126): the fields are decoded and NOT_IMPLEMENTED is raised. -/
def execPld (_ra : Reg) (_port : Byte) (s : State) : Host.Outcome State Fault Refusal :=
  raiseError .notImplemented s

/-- `pst ra, port` (R127): the fields are decoded and NOT_IMPLEMENTED is raised. -/
def execPst (_ra : Reg) (_port : Byte) (s : State) : Host.Outcome State Fault Refusal :=
  raiseError .notImplemented s

/-- The effective address of `mld` and `mst` in a state (R58 to R60); `none` where it is out of range. -/
def State.address (s : State) (rb : Reg) (off : Off) : Option Byte :=
  effectiveAddress s.config.eaPolicy (s.reg rb) off

/-- `mld ra, rb, off` (R128). -/
def execMld (ra rb : Reg) (off : Off) (s : State) : Host.Outcome State Fault Refusal :=
  match s.address rb off with
  | some ea => writeBack ra (plain (s.memRead ea)) s
  | none => raiseError .memOutOfRange s

/-- `mst ra, rb, off` (R129). -/
def execMst (ra rb : Reg) (off : Off) (s : State) : Host.Outcome State Fault Refusal :=
  match s.address rb off with
  | some ea => complete (s.memWrite ea (s.reg ra)).advance
  | none => raiseError .memOutOfRange s

end Sys2Proof.Machine
end

