-- ==== Sys2Proof/Machine/Dispatch.lean ====
section
/-! DEFINITION. The 16-arm dispatch of the step cycle (R110), one arm per primary form. -/

namespace Sys2Proof.Machine

-- The effect of one decoded instruction (R110).
def exec (i : Instr) (s : State) : Host.Outcome State Fault Refusal :=
  match i with
  | .nop => Sys2Proof.Machine.execNop s
  | .hlt => Sys2Proof.Machine.execHlt s
  | .jmp addr => Sys2Proof.Machine.execJmp addr s
  | .brh cond addr => Sys2Proof.Machine.execBrh cond addr s
  | .cal addr => Sys2Proof.Machine.execCal addr s
  | .ret => Sys2Proof.Machine.execRet s
  | .pld ra port => Sys2Proof.Machine.execPld ra port s
  | .pst ra port => Sys2Proof.Machine.execPst ra port s
  | .mld ra rb off => Sys2Proof.Machine.execMld ra rb off s
  | .mst ra rb off => Sys2Proof.Machine.execMst ra rb off s
  | .ldi ra imm => Sys2Proof.Machine.execLdi ra imm s
  | .adi ra imm => Sys2Proof.Machine.execAdi ra imm s
  | .add ra rb rc => Sys2Proof.Machine.execAdd ra rb rc s
  | .sub ra rb rc => Sys2Proof.Machine.execSub ra rb rc s
  | .bit ra rb sel rc => Sys2Proof.Machine.execBit ra rb sel rc s
  | .rsh ra rb => Sys2Proof.Machine.execRsh ra rb s

end Sys2Proof.Machine
end

