-- ==== Sys2Proof/Machine/Cycle.lean ====
section
/-! DEFINITION. The step cycle (R110, R155): the halted check, the fetch, the decode and the selected instruction. -/

namespace Sys2Proof.Machine

/-- `IMEM[a]` (R11, R37). -/
def ImageRom.word (m : ImageRom) (a : Nat) : Word := Store.get (0 : Word) m a

/-- The word at the pc; `none` when pc ≥ IMAGE_LEN (R31, R110). -/
def State.fetch (s : State) : Option Word :=
  if s.pc.toNat < s.imageLen.val then some (ImageRom.word s.imem s.pc.toNat) else none

/-- The decoder inside the core: decoding by the configured tables (R10, R81). -/
def State.decode (s : State) (w : Word) : Except DecodeError Instr := decodeWith s.config.tables w

/-- One step, its checks in the order of R155. -/
def cycle (s : State) : Host.Outcome State Fault Refusal :=
  if s.halted then raiseError .stepWhileHalted s
  else
    match s.fetch with
    | none => raiseError .fetchOutOfImage s
    | some w =>
      match s.decode w with
      | .error _ => raiseError .unknownOpcode s
      | .ok i => exec i s

/-- The address of IMEM that a word is placed at to be fetched next: the pc, or 0 where the pc is past the last
word of IMEM. -/
def State.fetchAddress (s : State) : Nat := if s.pc.toNat < imageMax then s.pc.toNat else 0

/-- `s` with the word `w` in IMEM where the next step fetches: the word is stored, IMAGE_LEN covers it, and the
core is Running (DESIGN CHOICE, log entry 8; safe: no step calls it). -/
def State.placeWord (s : State) (w : Word) : State :=
  { s with
    imem := Store.set (0 : Word) s.imem s.fetchAddress w
    imageLen := Fin.ofNat 1025 (max s.imageLen.val (s.fetchAddress + 1))
    pc := BitVec.ofNat 11 s.fetchAddress
    halted := false }

end Sys2Proof.Machine
end

