-- ==== Sys2Proof/Machine/Step.lean ====
section
/-! DEFINITION. The step of the basm core, and the placing of an instruction where it fetches. -/

namespace Sys2Proof.Machine

/-- One atomic step (R12, R13, R110). -/
def step (s : State) : Host.Outcome State Fault Refusal := cycle s

/-- `s` with the instruction whose bits are `w` (the bits above `nbits` zero) stored where `step` fetches next. -/
def State.withFetchWord (s : State) (nbits w : Nat) : State :=
  s.placeWord (BitVec.ofNat 16 (w % 2 ^ nbits))

end Sys2Proof.Machine
end

