-- ==== Sys2Proof/Machine/Session.lean ====
section
/-! DEFINITION. The host's side of the block (R15, R16): reset (R170), loading an image (R105, R173) with its debug
correlator table (R160), the snapshot (R15, R35), the debug lookup (R161) and the message of a step (R150). -/

namespace Sys2Proof.Machine

/-! ## Reset -/

/-- A reset request: every item of R43 at its reset value; IMEM, IMAGE_LEN and DBG unchanged (R170, R172). -/
def State.resetBlock (s : State) : State :=
  { State.reset with config := s.config, imem := s.imem, imageLen := s.imageLen, dbg := s.dbg }

/-! ## Load -/

/-- One per-instruction fact of the debug map: the source line, counted from 1, and the address (R106, R160). -/
structure LineEntry where
  line : Nat
  address : Nat
deriving DecidableEq, Repr

/-- What a host loads (R15 `img_load`): the image's words in order and the debug map's entries. -/
structure Image where
  words : List Word
  lines : List LineEntry
deriving DecidableEq, Repr

/-- IMEM with words stored from address `k` on (R37, R173). -/
def fillWords (m : ImageRom) (k : Nat) : List Word → ImageRom
  | [] => m
  | w :: ws => fillWords (Store.set (0 : Word) m k w) (k + 1) ws

/-- DBG with the entries of a debug map written (R160). -/
def fillLines (m : DebugRom) : List LineEntry → DebugRom
  | [] => m
  | e :: es => fillLines (Store.set (none : Option Nat) m e.address (some e.line)) es

/-- Whether an image fits: at most 1024 words (R105), each debug entry at an address of DBG (R42) with a line
that LINE_W bits hold (R42). The spec is silent on refusing for the sake of a debug entry (DESIGN CHOICE, log entry 11;
safe), and on an entry that no assembler run makes: one with line 0, or at an address at or above the image's word
count, where there is no emitted instruction (R160). Such an entry fits and is loaded as a valid one (DESIGN CHOICE, log
entry 11; unsafe for a claim about the lookup of such an entry). -/
def Image.fits (c : Config) (img : Image) : Bool :=
  decide (img.words.length ≤ imageMax) &&
    img.lines.all fun e => decide (e.address < imageMax) && decide (e.line < 2 ^ c.lineWidth)

/-- A host load followed by its reset (R16, R173); `none` where the image is refused and no session starts (D23).
What state the block is then in: `respond`, log entry 20. -/
def State.load (s : State) (img : Image) : Option State :=
  if img.fits s.config then
    some { s with
      imem := fillWords [] 0 img.words
      imageLen := Fin.ofNat 1025 img.words.length
      dbg := fillLines [] img.lines }.resetBlock
  else none

/-- The words of big-endian byte pairs (R54); a last odd byte is not a word. -/
def wordsOfBytes : List Byte → List Word
  | hi :: lo :: rest => wordOfBytes hi lo :: wordsOfBytes rest
  | _ => []

/-- The words of a Program Image file (R54, R105); `none` for an odd size or more than 2048 bytes (D23). -/
def wordsOfFile (bytes : List Byte) : Option (List Word) :=
  if bytes.length % 2 = 0 ∧ bytes.length ≤ 2 * imageMax then some (wordsOfBytes bytes) else none

/-- The Program Image file of a list of words (R105). -/
def fileOfWords (words : List Word) : List Byte := words.flatMap bytesOfWord

/-! ## Outputs -/

/-- The snapshot of R15: registers, flags, pc, data memory and the halted flag; not the call stack (R35). -/
structure Snapshot where
  regs : List Byte
  z : Bool
  c : Bool
  pc : PcVal
  mem : List Byte
  halted : Bool
deriving DecidableEq, Repr

/-- The snapshot of a state (R15). -/
def State.snapshot (s : State) : Snapshot :=
  { regs := [Reg.r0, .r1, .r2, .r3, .r4, .r5, .r6, .r7].map s.reg
    z := s.z
    c := s.c
    pc := s.pc
    mem := (List.range dmemSize).map fun a => s.memRead (BitVec.ofNat 8 a)
    halted := s.halted }

/-- The debug correlator's lookup: the line of a valid entry at `p` ≤ 1023, else none (R161). -/
def DebugRom.lookup (m : DebugRom) (p : PcVal) : Option Nat :=
  if p.toNat < imageMax then Store.get (none : Option Nat) m p.toNat else none

/-- The step's optional message (R150): nothing for OK, HALTED and RESET, else the error and err_pc. -/
def State.message (s : State) : Option (StepError × PcVal) :=
  match s.status with
  | .error e => some (e, s.errPc)
  | _ => none

/-! ## The host's requests -/

/-- Everything a host can ask of the block (R16). -/
inductive HostRequest where
  | load (img : Image)
  | step
  | reset
  | snapshot
  | correlate (p : PcVal)
  | scroll
  | quit
deriving DecidableEq, Repr

/-- What the host gets back (R16). -/
inductive HostReply where
  /-- Nothing is returned. -/
  | nothing
  /-- The image was refused and no session starts (D23); the block keeps its state (DESIGN CHOICE, log entry 20). -/
  | loadRefused
  /-- The status code, err_pc and the snapshot after a step. -/
  | stepped (status : BitVec 4) (errPc : PcVal) (snap : Snapshot)
  /-- A snapshot alone. -/
  | snap (snap : Snapshot)
  /-- The debug correlator's answer: the line where `dbg_valid` is 1. -/
  | line (l : Option Nat)
deriving DecidableEq, Repr

/-- The block's answer to a request (R16): the state after it and what the host gets back. D23 says of a refused load
only that no session starts. A load refused in mid-session leaves the state of the session before it, which the host can
go on stepping (DESIGN CHOICE, log entry 20; unsafe). -/
def respond (r : HostRequest) (s : State) : Host.Outcome (State × HostReply) Fault Refusal :=
  match r with
  | .load img =>
    match s.load img with
    | some t => .next (t, .nothing)
    | none => .next (s, .loadRefused)
  | .step =>
    match step s with
    | .next t => .next (t, .stepped t.status.code t.errPc t.snapshot)
    | .fault f => .fault f
    | .refused q => .refused q
  | .reset => .next (s.resetBlock, .snap s.resetBlock.snapshot)
  | .snapshot => .next (s, .snap s.snapshot)
  | .correlate p => .next (s, .line (DebugRom.lookup s.dbg p))
  | .scroll => .next (s, .nothing)
  | .quit => .next (s, .nothing)

end Sys2Proof.Machine
end

