-- ==== Sys2Proof/Machine/Assembler.lean ====
section
/-! DEFINITION. The assembler, the toolchain that produces the encodings (R6, R91 to R108): operand encoders,
pseudo-instructions, the two passes over source text, and what a run prints, answers and writes. No step of the machine calls it. -/

namespace Sys2Proof.Machine

/-- A piece of source text. -/
abbrev Token := List Char

/-- The kinds of assembly error (R104). -/
inductive AsmError where
  | malformedOperand
  | unknownMnemonic
  | unknownOperation
  | unknownCondition
  | duplicateLabel
  | unresolvedLabel
  /-- An out-of-range literal, or a reference to a label bound above 1023 (the latter DESIGN CHOICE, log entry 21). -/
  | outOfRange
  | wrongArity
  | missingComma
  | programTooLong
deriving DecidableEq, Repr

/-- An error with the token it names, empty where it names none (R104). -/
structure AsmFault where
  error : AsmError
  token : Token
deriving DecidableEq, Repr

/-- A failed run: the source line, counted from 1, and the error (R104). -/
structure AsmFailure where
  line : Nat
  fault : AsmFault
deriving DecidableEq, Repr

/-- What a failed run reports: the source path, and the line and error (R104). `AsmReport.printed` is its text. -/
structure AsmReport where
  path : String
  failure : AsmFailure
deriving DecidableEq, Repr

/-- The Label Table: label names with instruction addresses (R17, R101). -/
abbrev LabelTable := List (Token × Nat)

/-! ## Literals (R95) -/

/-- Whether `a` directly followed by `b` occurs anywhere. -/
def hasPair (a b : Char) : Token → Bool
  | x :: y :: rest => (x == a && y == b) || hasPair a b (y :: rest)
  | _ => false

/-- The value of a digit in a base of at most 16, upper or lower case. -/
def digitValue (base : Nat) (c : Char) : Option Nat :=
  let v :=
    if '0' ≤ c ∧ c ≤ '9' then some (c.toNat - '0'.toNat)
    else if 'a' ≤ c ∧ c ≤ 'f' then some (c.toNat - 'a'.toNat + 10)
    else if 'A' ≤ c ∧ c ≤ 'F' then some (c.toNat - 'A'.toNat + 10)
    else none
  v.bind fun n => if n < base then some n else none

/-- The value of a digit string after a value already read. -/
def digitsFrom (base : Nat) : Nat → Token → Option Nat
  | acc, [] => some acc
  | acc, c :: cs =>
    match digitValue base c with
    | some d => digitsFrom base (acc * base + d) cs
    | none => none

/-- The value of one or more digits. -/
def parseDigits (base : Nat) : Token → Option Nat
  | [] => none
  | t => digitsFrom base 0 t

/-- An unsigned literal of the chosen base, with its prefix (R95 step 2). -/
def parseMagnitude (base : Nat) (t : Token) : Option Nat :=
  match base, t with
  | 16, '0' :: 'x' :: ds => parseDigits 16 ds
  | 2, '0' :: 'b' :: ds => parseDigits 2 ds
  | 10, ds => parseDigits 10 ds
  | _, _ => none

/-- The base a token selects: `0x` anywhere before `0b` anywhere before decimal (R95 step 1). -/
def literalBase (t : Token) : Nat :=
  if hasPair '0' 'x' t then 16 else if hasPair '0' 'b' t then 2 else 10

/-- A numeric literal (R95). -/
def parseLiteral (t : Token) : Option Int :=
  match t with
  | '-' :: ds => (parseMagnitude (literalBase t) ds).map fun n => -(n : Int)
  | ds => (parseMagnitude (literalBase t) ds).map fun n => (n : Int)

/-! ## Operand encoders (R94 to R99) -/

/-- A register operand: `r` and decimal digits of a value below 8 (R94). -/
def regOperand (t : Token) : Except AsmFault Reg :=
  match t with
  | 'r' :: ds =>
    match parseDigits 10 ds with
    | some n => if registerNumberOk n then .ok (Reg.ofBits (BitVec.ofNat 3 n)) else .error ⟨.malformedOperand, t⟩
    | none => .error ⟨.malformedOperand, t⟩
  | _ => .error ⟨.malformedOperand, t⟩

/-- A literal that must pass a range check. -/
def rangedLiteral (ok : Int → Bool) (t : Token) : Except AsmFault Int :=
  match parseLiteral t with
  | some v => if ok v then .ok v else .error ⟨.outOfRange, t⟩
  | none => .error ⟨.malformedOperand, t⟩

/-- An immediate or port operand: [-128,255], masked to 8 bits (R96). -/
def immOperand (t : Token) : Except AsmFault Byte :=
  (rangedLiteral immediateOk t).map fun v => BitVec.ofInt 8 v

/-- An offset operand: [-32,31], in 6 bits (R97). -/
def offOperand (t : Token) : Except AsmFault Off :=
  (rangedLiteral offsetOk t).map fun v => BitVec.ofInt 6 v

/-- The address bound to a label. -/
def LabelTable.find (l : LabelTable) (t : Token) : Option Nat := l.lookup t

/-- An address operand: a literal, else a label; the value must lie in [0,1023] (R98). R98 names no error for a label
bound above 1023, and the list of R104 has only 'out-of-range literal', which a label is not: such a reference is
reported as `outOfRange` too (DESIGN CHOICE, log entry 21; unsafe for a claim that names this error). -/
def addrOperand (labels : LabelTable) (t : Token) : Except AsmFault IAddr :=
  match parseLiteral t with
  | some v => if addressOk v then .ok (BitVec.ofInt 10 v) else .error ⟨.outOfRange, t⟩
  | none =>
    match labels.find t with
    | some a => if addressOk a then .ok (BitVec.ofNat 10 a) else .error ⟨.outOfRange, t⟩
    | none => .error ⟨.unresolvedLabel, t⟩

/-- The condition names (R86, R99). -/
def condNames : List (Token × Cond) :=
  [(['e', 'q'], .eq), (['n', 'e'], .ne), (['g', 'e'], .ge), (['l', 't'], .lt)]

/-- A condition operand (R99). -/
def condOperand (t : Token) : Except AsmFault Cond :=
  match condNames.lookup t with
  | some c => .ok c
  | none => .error ⟨.unknownCondition, t⟩

/-- The ALU selector names (R87, R99). -/
def selNames : List (Token × AluSel) :=
  [("or".toList, .or), ("and".toList, .and), ("xor".toList, .xor), ("implies".toList, .implies),
   ("nor".toList, .nor), ("nand".toList, .nand), ("xnor".toList, .xnor), ("nimplies".toList, .nimplies)]

/-- An ALU selector operand (R99). -/
def selOperand (t : Token) : Except AsmFault AluSel :=
  match selNames.lookup t with
  | some s => .ok s
  | none => .error ⟨.unknownOperation, t⟩

/-! ## Mnemonics and pseudo-instructions (R92, R93, R100) -/

/-- The primary mnemonics (R93). -/
def formNames : List (Token × Form) :=
  [("nop".toList, .nop), ("hlt".toList, .hlt), ("jmp".toList, .jmp), ("brh".toList, .brh),
   ("cal".toList, .cal), ("ret".toList, .ret), ("pld".toList, .pld), ("pst".toList, .pst),
   ("mld".toList, .mld), ("mst".toList, .mst), ("ldi".toList, .ldi), ("adi".toList, .adi),
   ("add".toList, .add), ("sub".toList, .sub), ("bit".toList, .bit), ("rsh".toList, .rsh)]

/-- How many operands a primary form takes (R93). -/
def Form.arity : Form → Nat
  | .nop | .hlt | .ret => 0
  | .jmp | .cal => 1
  | .brh | .pld | .pst | .ldi | .adi | .rsh => 2
  | .mld | .mst | .add | .sub => 3
  | .bit => 4

/-- An operand of a pseudo-instruction's expansion: one of its own operands, or a fixed token. -/
inductive PseudoArg where
  | arg (i : Nat)
  | fixed (t : Token)
deriving DecidableEq, Repr

/-- A pseudo-instruction: its arity and the primary form it is rewritten to (R92). -/
structure Pseudo where
  arity : Nat
  form : Form
  args : List PseudoArg
deriving DecidableEq, Repr

/-- A bitwise pseudo-instruction `op a,b,c`, rewritten to `bit a,b,<sel>,c` (R92). -/
def bitPseudo (sel : Token) : Pseudo := ⟨3, .bit, [.arg 0, .arg 1, .fixed sel, .arg 2]⟩

/-- The pseudo-instruction table (R92). -/
def pseudoTable : List (Token × Pseudo) :=
  [("cmp".toList, ⟨2, .sub, [.fixed "r0".toList, .arg 0, .arg 1]⟩),
   ("mov".toList, ⟨2, .add, [.arg 0, .arg 1, .fixed "r0".toList]⟩),
   ("lsh".toList, ⟨2, .add, [.arg 0, .arg 1, .arg 1]⟩),
   ("inc".toList, ⟨1, .adi, [.arg 0, .fixed "1".toList]⟩),
   ("dec".toList, ⟨1, .adi, [.arg 0, .fixed "-1".toList]⟩),
   ("orr".toList, bitPseudo "or".toList), ("and".toList, bitPseudo "and".toList),
   ("xor".toList, bitPseudo "xor".toList), ("imp".toList, bitPseudo "implies".toList),
   ("nor".toList, bitPseudo "nor".toList), ("nnd".toList, bitPseudo "nand".toList),
   ("xnr".toList, bitPseudo "xnor".toList), ("nmp".toList, bitPseudo "nimplies".toList),
   ("not".toList, ⟨2, .bit, [.arg 0, .arg 1, .fixed "nor".toList, .fixed "r0".toList]⟩)]

/-- One operand of an expansion. -/
def PseudoArg.expand (ops : List Token) : PseudoArg → Token
  | .arg i => ops.getD i []
  | .fixed t => t

/-- The form and operands that a mnemonic and its operands stand for, the arity checked first (R92, R100). -/
def resolveForm (mnemonic : Token) (ops : List Token) : Except AsmFault (Form × List Token) :=
  match formNames.lookup mnemonic with
  | some f => if ops.length = Form.arity f then .ok (f, ops) else .error ⟨.wrongArity, mnemonic⟩
  | none =>
    match pseudoTable.lookup mnemonic with
    | some p =>
      if ops.length = p.arity then .ok (p.form, p.args.map (PseudoArg.expand ops))
      else .error ⟨.wrongArity, mnemonic⟩
    | none => .error ⟨.unknownMnemonic, mnemonic⟩

/-- The instruction of a primary form and its operands, encoded from left to right (R93). -/
def encodeOperands (labels : LabelTable) (f : Form) (ops : List Token) : Except AsmFault Instr :=
  match f, ops with
  | .nop, [] => .ok .nop
  | .hlt, [] => .ok .hlt
  | .ret, [] => .ok .ret
  | .jmp, [a] => (addrOperand labels a).map .jmp
  | .cal, [a] => (addrOperand labels a).map .cal
  | .brh, [c, a] => do .ok (.brh (← condOperand c) (← addrOperand labels a))
  | .pld, [a, p] => do .ok (.pld (← regOperand a) (← immOperand p))
  | .pst, [a, p] => do .ok (.pst (← regOperand a) (← immOperand p))
  | .ldi, [a, v] => do .ok (.ldi (← regOperand a) (← immOperand v))
  | .adi, [a, v] => do .ok (.adi (← regOperand a) (← immOperand v))
  | .mld, [a, b, o] => do .ok (.mld (← regOperand a) (← regOperand b) (← offOperand o))
  | .mst, [a, b, o] => do .ok (.mst (← regOperand a) (← regOperand b) (← offOperand o))
  | .add, [a, b, c] => do .ok (.add (← regOperand a) (← regOperand b) (← regOperand c))
  | .sub, [a, b, c] => do .ok (.sub (← regOperand a) (← regOperand b) (← regOperand c))
  | .bit, [a, b, s, c] => do .ok (.bit (← regOperand a) (← regOperand b) (← selOperand s) (← regOperand c))
  | .rsh, [a, b] => do .ok (.rsh (← regOperand a) (← regOperand b))
  | _, _ => .error ⟨.wrongArity, []⟩

/-! ## Lines (R91, R102) -/

/-- A character list cut at each `sep`. -/
def splitAtChar (sep : Char) : Token → List Token
  | [] => [[]]
  | c :: cs =>
    match splitAtChar sep cs with
    | [] => if c = sep then [[], []] else [[c]]
    | l :: ls => if c = sep then [] :: l :: ls else (c :: l) :: ls

/-- Text without the whitespace around it (which characters are whitespace: DESIGN CHOICE, log entry 13; safe). -/
def trim (t : Token) : Token :=
  ((t.dropWhile Char.isWhitespace).reverse.dropWhile Char.isWhitespace).reverse

/-- Text up to the first `#` (R91 step 1). -/
def stripComment (t : Token) : Token := t.takeWhile (· != '#')

/-- The characters a label name may hold (R91, D24). -/
def labelChar (c : Char) : Bool := !(c.isWhitespace || c == ':' || c == ',' || c == '#')

/-- The leading labels of a line, and the text after them (R91 step 2). The first argument bounds the number of
labels; a line has fewer labels than characters. -/
def stripLabels : Nat → Token → List Token × Token
  | 0, t => ([], t)
  | n + 1, t =>
    let u := t.dropWhile Char.isWhitespace
    let name := u.takeWhile labelChar
    match u.dropWhile labelChar with
    | ':' :: rest =>
      if name = [] then ([], u)
      else
        let (names, text) := stripLabels n rest
        (name :: names, text)
    | _ => ([], u)

/-- One source line, taken apart: its number, its labels and its trimmed instruction text. -/
structure SourceLine where
  number : Nat
  labels : List Token
  text : Token
deriving DecidableEq, Repr

/-- One line of source (R91). -/
def readLine (number : Nat) (raw : Token) : SourceLine :=
  let t := stripComment raw
  let (labels, text) := stripLabels (t.length + 1) t
  { number := number, labels := labels, text := trim text }

/-- The lines of a source, numbered from `n` (R91). -/
def readLines (n : Nat) : List Token → List SourceLine
  | [] => []
  | l :: ls => readLine n l :: readLines (n + 1) ls

/-- The operands of an instruction's text after the mnemonic, trimmed (R91, R102). -/
def splitOperands (t : Token) : List Token :=
  if trim t = [] then [] else (splitAtChar ',' t).map trim

/-- The instruction of a line's text under a label table, its checks in the order of R102 and R100
(DESIGN CHOICE, log entry 12; safe). -/
def encodeText (labels : LabelTable) (text : Token) : Except AsmFault Instr :=
  let mnemonic := text.takeWhile (!·.isWhitespace)
  let ops := splitOperands (text.dropWhile (!·.isWhitespace))
  match ops.find? (·.any Char.isWhitespace) with
  | some t => .error ⟨.missingComma, t⟩
  | none =>
    match resolveForm mnemonic ops with
    | .error e => .error e
    | .ok (f, args) =>
      if [] ∈ ops then .error ⟨.malformedOperand, []⟩ else encodeOperands labels f args

/-! ## The two passes (R101 to R106) -/

/-- The labels of one line bound to an address; a name already bound is an error (R101). -/
def bindLabels (line addr : Nat) : LabelTable → List Token → Except AsmFailure LabelTable
  | tab, [] => .ok tab
  | tab, t :: ts =>
    match tab.find t with
    | some _ => .error ⟨line, ⟨.duplicateLabel, t⟩⟩
    | none => bindLabels line addr (tab ++ [(t, addr)]) ts

/-- Pass 1: the Label Table, with the address counter (R101). -/
def passOne : Nat → LabelTable → List SourceLine → Except AsmFailure LabelTable
  | _, tab, [] => .ok tab
  | addr, tab, l :: ls =>
    match bindLabels l.number addr tab l.labels with
    | .error e => .error e
    | .ok tab' => passOne (if l.text = [] then addr else addr + 1) tab' ls

/-- Pass 2: the instructions' words under an encoding's tables (R10) with the line and address of each (R102, R103, R106). -/
def passTwo (t : EncodingTables) (labels : LabelTable) : Nat → List SourceLine → Except AsmFailure (List (Word × LineEntry))
  | _, [] => .ok []
  | addr, l :: ls =>
    if l.text = [] then passTwo t labels addr ls
    else if imageMax ≤ addr then .error ⟨l.number, ⟨.programTooLong, []⟩⟩
    else
      match encodeText labels l.text with
      | .error e => .error ⟨l.number, e⟩
      | .ok i =>
        match passTwo t labels (addr + 1) ls with
        | .error e => .error e
        | .ok rest => .ok ((encodeWith t i, ⟨l.number, addr⟩) :: rest)

/-- The lines that bind each label, for the debug map (R106). -/
def labelLines (labels : LabelTable) (lines : List SourceLine) : List (Token × LineEntry) :=
  lines.flatMap fun l => l.labels.map fun t => (t, ⟨l.number, (labels.find t).getD 0⟩)

/-- The facts a Debug Map carries (R106). -/
structure DebugMap where
  labels : List (Token × LineEntry)
  instructions : List LineEntry
  sourceText : String
  sourcePath : String
deriving DecidableEq, Repr

/-- What a successful run produces: the image's words and the debug map (R105, R106). -/
structure Assembly where
  words : List Word
  debugMap : DebugMap
deriving DecidableEq, Repr

/-- The assembler for an encoding (R10): two passes over the source text; the first error aborts the run (R101 to
R106). Lines are counted from 1 (R160, D18) and end at a line feed (DESIGN CHOICE, log entry 13; unsafe for a claim about
an error's line number). -/
def assemble (t : EncodingTables) (path source : String) : Except AsmReport Assembly :=
  let lines := readLines 1 (splitAtChar '\n' source.toList)
  match passOne 0 [] lines with
  | .error e => .error ⟨path, e⟩
  | .ok labels =>
    match passTwo t labels 0 lines with
    | .error e => .error ⟨path, e⟩
    | .ok out =>
      .ok { words := out.map Prod.fst
            debugMap := { labels := labelLines labels lines
                          instructions := out.map Prod.snd
                          sourceText := source
                          sourcePath := path } }

/-! ## A run of the tool (R104 to R106) -/

/-- The errors of an operand, whose message names the token (R104). Which of the list are an operand's: DEDUCED, log
entry 17; unsafe for a claim that a message names its token. -/
def AsmError.ofOperand : AsmError → Bool
  | .malformedOperand | .unknownOperation | .unknownCondition | .unresolvedLabel | .outOfRange | .missingComma => true
  | .unknownMnemonic | .duplicateLabel | .wrongArity | .programTooLong => false

/-- The message of a failed run (R104): free words, around the token where the error is an operand's. -/
def AsmReport.message (source : String) (r : AsmReport) : String :=
  let words := Config.messageWords r.path source
  if r.failure.fault.error.ofOperand then words.1 ++ String.ofList r.failure.fault.token ++ words.2 else words.1

/-- What a failed run prints: `<path>:<line>: <message>` (R104). -/
def AsmReport.printed (source : String) (r : AsmReport) : String :=
  r.path ++ ":" ++ Nat.repr r.failure.line ++ ": " ++ r.message source

/-- What a run of the assembler leaves: the error it prints, its exit status and the files it writes (R104 to R106; the
Debug Map by its facts, its on-disk shape being out of scope by R106). -/
structure AsmRun where
  printed : Option String
  exitStatus : Nat
  imageFile : Option (List Byte)
  debugFile : Option DebugMap
deriving DecidableEq, Repr

/-- A run of the assembler, with or without the debug option (R104 to R106). A failed run prints its first error, exits
with status 1 and writes no file. -/
def runAssembler (t : EncodingTables) (debug : Bool) (path source : String) : AsmRun :=
  match assemble t path source with
  | .error r => { printed := some (r.printed source), exitStatus := 1, imageFile := none, debugFile := none }
  | .ok a =>
    { printed := none
      exitStatus := Config.successStatus path source
      imageFile := some (fileOfWords a.words)
      debugFile := if debug then some a.debugMap else none }

/-- The image a host loads from a run's output (R106, R160). -/
def Assembly.image (a : Assembly) : Image := { words := a.words, lines := a.debugMap.instructions }

end Sys2Proof.Machine
end

