-- ==== Sys2Proof/Safety.lean ====
section
/-! DEFINITION. What a good state and a good run are, in the terms claims use: the state invariant, the classes of
R157 and R181 (running, final, faulted), and what no instruction may change. -/

namespace Sys2Proof.Machine

/-- R181: the last step ended with HALTED, so the run has ended well and the state is final. -/
def State.endedWell (s : State) : Prop := s.status = .halted ∧ s.halted = true

/-- R157: the last step ended in an error status. Such a state counts as a fault: it is not final, and only a
reset clears the error. -/
def State.faulted (s : State) : Prop := ∃ e, s.status = .error e

/-- A run of `n` steps from `s` to `t` in which no step ended in an error (R181). -/
def goodRun : Nat → State → State → Prop
  | 0, s, t => t = s
  | n + 1, s, t => ∃ u, step s = .next u ∧ ¬ u.faulted ∧ goodRun n u t

/-- The parts of the state that no instruction writes: the parameters, IMEM with IMAGE_LEN (R37, R51) and DBG
(R42). -/
def sameFixed (s t : State) : Prop :=
  t.config = s.config ∧ t.imem = s.imem ∧ t.imageLen = s.imageLen ∧ t.dbg = s.dbg

/-- Every byte of data memory reads as before. -/
def sameMemory (s t : State) : Prop := ∀ a, t.memRead a = s.memRead a

/-- Every register reads as before. -/
def sameRegs (s t : State) : Prop := ∀ r, t.reg r = s.reg r

/-- Every register but `ra` reads as before. -/
def sameRegsBut (ra : Reg) (s t : State) : Prop := ∀ r, r ≠ ra → t.reg r = s.reg r

/-- Both flags are as before. -/
def sameFlags (s t : State) : Prop := t.z = s.z ∧ t.c = s.c

/-- The latches after a completing step that is not `hlt` (R110), with the halted bit as before. -/
def completedOk (s t : State) : Prop := t.status = .ok ∧ t.errPc = 0 ∧ t.halted = s.halted

/-- The frame of an instruction whose only destination is the register `ra` (R24), the flags apart: `ra` holds `v`
(r0 stays 0x00, R22), every other register, the memory, the stack and the fixed parts are as before, the pc has
advanced and the latches say OK. -/
def wroteOnly (ra : Reg) (v : Byte) (s t : State) : Prop :=
  (t.reg ra = if ra = .r0 then 0 else v) ∧ sameRegsBut ra s t ∧ sameMemory s t ∧ t.stack = s.stack ∧
    sameFixed s t ∧ t.pc = s.pc + 1 ∧ completedOk s t

/-- The flags after a flag writer whose exact result is `raw` (R136, R137). -/
def flagsOf (raw : Int) (t : State) : Prop := (t.z = true ↔ trunc8 raw = 0) ∧ (t.c = true ↔ raw < 0)

/-- The next step of `s` reaches the instruction `i`: the core is Running, the pc is inside the image, and the word
there decodes to `i` under the core's tables (R10, R110). -/
def State.reaches (s : State) (i : Instr) : Prop :=
  s.halted = false ∧ s.pc.toNat < s.imageLen.val ∧ s.decode (ImageRom.word s.imem s.pc.toNat) = .ok i

/-- The invariant of the machine: the stores are in canonical form, the pc is a legal value (R27), the stack is
within its capacity (R34) and the latches agree with the state (R41, R151). -/
structure State.Inv (s : State) : Prop where
  /-- `STACK_DEPTH` is positive or unbounded (R9) and the encoding tables are legal (R71, R80). -/
  config_wf : s.config.wf = true
  /-- The data memory is canonical. -/
  dmem_wf : Memory.wf s.dmem = true
  /-- IMEM is canonical. -/
  imem_wf : Store.wf (0 : Word) imageMax s.imem = true
  /-- DBG is canonical. -/
  dbg_wf : Store.wf (none : Option Nat) imageMax s.dbg = true
  /-- The pc is one of 0 to 1024 (R27). -/
  pc_legal : s.pc.toNat ≤ 1024
  /-- The depth is at most `STACK_DEPTH` (R34). -/
  stack_bounded : ∀ n, s.config.stackDepth = some n → s.stack.length ≤ n
  /-- The Halted bit is set exactly after `hlt` and after a step while halted (R36, R153). -/
  halted_iff : s.halted = true ↔ s.status = .halted ∨ s.status = .error .stepWhileHalted
  /-- After an error, err_pc is the pc (R151, R152). -/
  errPc_error : s.status.isError = true → s.errPc = s.pc
  /-- Otherwise err_pc is 0 (R41). -/
  errPc_other : s.status.isError = false → s.errPc = 0

end Sys2Proof.Machine
end

