-- ==== Sys2Proof/Certificates/Slice0/Obligations.lean ====
section
/-! DEFINITION. The statements for the provers, in the order of spec/: encoding, reset and load, the step cycle, the
register file and whole-machine rules, one statement for each instruction, the address unit, the selectors, the
assembler, the encoding tables. Where a rule is marked [decision: D<n>] in spec/, the clause is the spec's own
decision and the statement's basis is 'derived'. An error is a next state with the latches written: log entry 1. -/

open Sys2Proof Sys2Proof.Machine

/-! ## Encoding and decoding -/

/-- R70 to R80, R88, R89, R10: decoding an instruction's word gives the instruction back, under any legal opcode map and
field layout; the decided tables (D1, D2) are legal, so it holds of the decided words. -/
def Obligations.DecodeInvertsEncode : Prop :=
  (∀ i : Instr, decodeWord (encodeWord i) = .ok i) ∧
  ∀ e : EncodingTables, e.wf = true → ∀ i : Instr, decodeWith e (encodeWith e i) = .ok i

/-- R80, R81, R89, R10: every one of the 65536 words decodes under any legal tables, to the form that the opcode map gives
for its bits [15:12]; the decided map (D1) is the Glossary's order. -/
def Obligations.EveryWordDecodesByOpcode : Prop :=
  (∀ w : Word, ∃ i, decodeWord w = .ok i ∧ Form.all[(w.extractLsb' 12 4).toNat]? = some i.form) ∧
  ∀ e : EncodingTables, e.wf = true → ∀ w : Word,
    ∃ i, decodeWith e w = .ok i ∧ e.opcodeMap[(w.extractLsb' 12 4).toNat]? = some i.form

/-- R88 (decision D3), R10: under any legal tables, the decided ones among them, the bits a format ignores do not change
what a word decodes to, and the encoder writes zeros in them. -/
def Obligations.IgnoredBitsDoNotMatter : Prop :=
  EncodingTables.standard.wf = true ∧
  ∀ e : EncodingTables, e.wf = true → ∀ (w : Word) (i : Instr), decodeWith e w = .ok i →
    encodeWith e i = w &&& i.form.format.usedBits e.layout ∧
    ∀ w' : Word, w' &&& i.form.format.usedBits e.layout = w &&& i.form.format.usedBits e.layout →
      decodeWith e w' = .ok i

/-- R72 to R80 (decisions D1, D2): the word of every instruction, field by field from bit 15 down. -/
def Obligations.WordsOfTheFormats : Prop :=
  encodeWord .nop = 0x0#4 ++ 0#12 ∧ encodeWord .hlt = 0x1#4 ++ 0#12 ∧ encodeWord .ret = 0x5#4 ++ 0#12 ∧
  (∀ a : IAddr, encodeWord (.jmp a) = 0x2#4 ++ 0#2 ++ a ∧ encodeWord (.cal a) = 0x4#4 ++ 0#2 ++ a) ∧
  (∀ (k : Cond) (a : IAddr), encodeWord (.brh k a) = 0x3#4 ++ k.toBits ++ a) ∧
  (∀ (ra : Reg) (v : Byte),
    encodeWord (.pld ra v) = 0x6#4 ++ ra.toBits ++ 0#1 ++ v ∧
    encodeWord (.pst ra v) = 0x7#4 ++ ra.toBits ++ 0#1 ++ v ∧
    encodeWord (.ldi ra v) = 0xA#4 ++ ra.toBits ++ 0#1 ++ v ∧
    encodeWord (.adi ra v) = 0xB#4 ++ ra.toBits ++ 0#1 ++ v) ∧
  (∀ (ra rb : Reg) (o : Off),
    encodeWord (.mld ra rb o) = 0x8#4 ++ ra.toBits ++ rb.toBits ++ o ∧
    encodeWord (.mst ra rb o) = 0x9#4 ++ ra.toBits ++ rb.toBits ++ o) ∧
  (∀ ra rb rc : Reg,
    encodeWord (.add ra rb rc) = 0xC#4 ++ ra.toBits ++ rb.toBits ++ 0#3 ++ rc.toBits ∧
    encodeWord (.sub ra rb rc) = 0xD#4 ++ ra.toBits ++ rb.toBits ++ 0#3 ++ rc.toBits) ∧
  (∀ (ra rb : Reg) (f : AluSel) (rc : Reg),
    encodeWord (.bit ra rb f rc) = 0xE#4 ++ ra.toBits ++ rb.toBits ++ f.toBits ++ rc.toBits) ∧
  (∀ ra rb : Reg, encodeWord (.rsh ra rb) = 0xF#4 ++ ra.toBits ++ rb.toBits ++ 0#6)

/-- Words of spec/95_test_vectors.md, one of each format, decode to the instructions they stand for. -/
def Obligations.SampleWordsDecode : Prop :=
  decodeWord 0x0FFF = .ok .nop ∧ decodeWord 0x1ABC = .ok .hlt ∧ decodeWord 0x2C05 = .ok (.jmp 5) ∧
  decodeWord 0x3C09 = .ok (.brh .lt 9) ∧ decodeWord 0x6207 = .ok (.pld .r1 7) ∧
  decodeWord 0x82BE = .ok (.mld .r1 .r2 0x3E) ∧ decodeWord 0xA1FF = .ok (.ldi .r0 0xFF) ∧
  decodeWord 0xC67A = .ok (.add .r3 .r1 .r2) ∧ decodeWord 0xE67A = .ok (.bit .r3 .r1 .nimplies .r2) ∧
  decodeWord 0xF2BF = .ok (.rsh .r1 .r2)

/-- R82, R86, R87: the codes of registers, conditions and ALU selectors. -/
def Obligations.OperandFieldCodes : Prop :=
  (∀ r : Reg, Reg.ofBits r.toBits = r) ∧
  [Reg.r0, .r1, .r2, .r3, .r4, .r5, .r6, .r7].map Reg.toBits = [0, 1, 2, 3, 4, 5, 6, 7] ∧
  [0b00, 0b01, 0b10, 0b11].map Cond.ofBits = [.eq, .ne, .ge, .lt] ∧
  [0, 1, 2, 3, 4, 5, 6, 7].map AluSel.ofBits = [.or, .and, .xor, .implies, .nor, .nand, .xnor, .nimplies]

/-- R54: the bytes 2k and 2k+1 of an image file form word k, the first being the more significant, and the file has
half as many words as bytes. -/
def Obligations.ImageFileIsBigEndian : Prop :=
  ∀ bytes : List Byte,
    (wordsOfBytes bytes).length = bytes.length / 2 ∧
    ∀ (k : Nat) (hi lo : Byte), bytes[2 * k]? = some hi → bytes[2 * k + 1]? = some lo →
      (wordsOfBytes bytes)[k]? = some (hi ++ lo)

/-- R105 (decision D23): an image of at most 1024 words is read back from its file of two bytes a word, and a file of
odd size or over 2048 bytes is refused. -/
def Obligations.ImageFileRoundTrip : Prop :=
  (∀ words : List Word, words.length ≤ 1024 →
    (fileOfWords words).length = 2 * words.length ∧ wordsOfFile (fileOfWords words) = some words) ∧
  ∀ bytes : List Byte, bytes.length % 2 = 1 ∨ 2048 < bytes.length → wordsOfFile bytes = none

/-! ## Reset and load -/

/-- R170, R43 (decision D13): a reset sets every item to its reset value and leaves IMEM, IMAGE_LEN, DBG and the
parameters alone. -/
def Obligations.ResetSetsEveryItem : Prop :=
  ∀ s : State, s.resetBlock.pc = 0 ∧ (∀ r, s.resetBlock.reg r = 0) ∧ s.resetBlock.z = false ∧
    s.resetBlock.c = false ∧ s.resetBlock.stack = [] ∧ (∀ a, s.resetBlock.memRead a = 0) ∧
    s.resetBlock.halted = false ∧ s.resetBlock.status.code = 0xF ∧ s.resetBlock.errPc = 0 ∧
    sameFixed s s.resetBlock

/-- R172: two resets give the same state as one, and the state after a reset depends only on IMEM, IMAGE_LEN and DBG
(and on the parameters of R9, which are fixed): however many steps came before, the reset gives the same state. -/
def Obligations.ResetForgetsTheSession : Prop :=
  (∀ s : State, s.resetBlock.resetBlock = s.resetBlock) ∧
  (∀ s t : State, sameFixed s t → t.resetBlock = s.resetBlock) ∧
  ∀ (n : Nat) (s t : State), Sys2Proof.core.run n s = .next t → t.resetBlock = s.resetBlock

/-- R173, R16, R105: a load of at most 1024 words is taken where every debug entry has an address of DBG and a line of at
most LINE_W bits (that such an entry, line 0 and an address past the words included, is taken and another may be refused
is the model's choice, log entry 11); a load that is taken puts the words in IMEM in order, sets IMAGE_LEN to their number
and then resets; a load of more than 1024 words is refused (decision D23). -/
def Obligations.LoadPlacesTheImage : Prop :=
  ∀ (s : State) (img : Image),
    (1024 < img.words.length → s.load img = none) ∧
    (img.words.length ≤ 1024 → (∀ e ∈ img.lines, e.address < 1024 ∧ e.line < 2 ^ s.config.lineWidth) →
      ∃ t, s.load img = some t) ∧
    ∀ t, s.load img = some t →
      (∀ (k : Nat) (w : Word), img.words[k]? = some w → ImageRom.word t.imem k = w) ∧
      t.imageLen.val = img.words.length ∧ t.config = s.config ∧ t.resetBlock = t

/-- R160, R161 (decision D18): after a load whose entries have distinct addresses, the debug lookup answers each
entry's line at its address and nothing at any other address. That this holds of an entry with line 0 or at an address
where there is no emitted instruction, too, is the model's choice (log entry 11). -/
def Obligations.LoadFillsTheDebugRom : Prop :=
  ∀ (s t : State) (img : Image), s.load img = some t →
    (img.lines.map LineEntry.address).Nodup →
    (∀ e ∈ img.lines, ∀ p : PcVal, p.toNat = e.address → DebugRom.lookup t.dbg p = some e.line) ∧
    ∀ p : PcVal, p.toNat ∉ img.lines.map LineEntry.address → DebugRom.lookup t.dbg p = none

/-- The model's reset state, with no image loaded (log entry 7), satisfies the invariant. -/
def Obligations.ResetStateIsGood : Prop := State.reset.Inv

/-- R173, R170: a state after a load satisfies the invariant. -/
def Obligations.LoadedStateIsGood : Prop :=
  ∀ (s t : State) (img : Image), s.config.wf = true → s.load img = some t → t.Inv

/-! ## The step cycle and its errors -/

/-- R110, R10: when the core is Running and the word at the pc decodes to `i` under the core's tables, the step is exactly `exec i`; nothing else is
added around it. -/
def Obligations.StepRunsTheDecodedInstruction : Prop :=
  ∀ (s : State) (i : Instr), s.reaches i → step s = exec i s

/-- R110: an instruction's word placed where the step fetches is the one the next step runs, in a core with legal tables.
The placing (`State.withFetchWord`) is the model's own tool and no request of the host: DESIGN CHOICE, log entry 8. -/
def Obligations.PlacedInstructionRunsNext : Prop :=
  ∀ (s : State) (i : Instr), s.config.wf = true →
    step (s.withFetchWord 16 (encodeWith s.config.tables i).toNat) =
      exec i (s.withFetchWord 16 (encodeWith s.config.tables i).toNat)

/-- R110, R150: every step of every state ends, with a status that is not RESET and whose code is at most 0x8; the step's
message names the error and the pc of the step after an error, and there is none after OK or HALTED. -/
def Obligations.EveryStepEnds : Prop :=
  ∀ s : State, ∃ t, step s = .next t ∧ t.status ≠ .reset ∧ t.status.code.toNat ≤ 8 ∧
    (t.message = none ↔ t.status = .ok ∨ t.status = .halted) ∧
    ∀ e, t.status = .error e → t.message = some (e, s.pc)

/-- R155 (decision D19): the halted check comes before the fetch check, and both before anything the word at the pc
could ask for. -/
def Obligations.ErrorChecksComeInOrder : Prop :=
  ∀ s : State,
    (s.halted = true → step s = .next { s with status := .error .stepWhileHalted, errPc := s.pc }) ∧
    (s.halted = false → s.imageLen.val ≤ s.pc.toNat →
      step s = .next { s with status := .error .fetchOutOfImage, errPc := s.pc })

/-- R154 (decisions D8, D9, D11, D12; log entry 1: an error is a next state): the exact cause of each error a step
reports, and the pc it records, in every state whose stack is within `STACK_DEPTH`. UNKNOWN_OPCODE needs a word whose opcode
is not in the opcode map, which legal tables leave none of. -/
def Obligations.ErrorsHaveExactlyTheirCauses : Prop :=
  ∀ s t : State, (∀ n, s.config.stackDepth = some n → s.stack.length ≤ n) → step s = .next t →
    (∀ e, t.status = .error e → t.errPc = s.pc) ∧
    (t.status = .error .stepWhileHalted ↔ s.halted = true) ∧
    (t.status = .error .fetchOutOfImage ↔ s.halted = false ∧ s.imageLen.val ≤ s.pc.toNat) ∧
    (t.status = .error .unknownOpcode ↔ s.halted = false ∧ s.pc.toNat < s.imageLen.val ∧
      s.config.tables.opcodeMap[(fieldAt s.config.tables.layout.op 4
        (ImageRom.word s.imem s.pc.toNat)).toNat]? = none) ∧
    (s.config.tables.wf = true → t.status ≠ .error .unknownOpcode) ∧
    (t.status = .error .notImplemented ↔ ∃ ra v, s.reaches (.pld ra v) ∨ s.reaches (.pst ra v)) ∧
    (t.status = .error .stackUnderflow ↔ s.reaches .ret ∧ s.stack = []) ∧
    (t.status = .error .stackOverflow ↔
      (∃ a, s.reaches (.cal a)) ∧ s.config.stackDepth = some s.stack.length) ∧
    (t.status = .error .memOutOfRange ↔
      s.config.eaPolicy = .fault ∧ ∃ ra rb o, (s.reaches (.mld ra rb o) ∨ s.reaches (.mst ra rb o)) ∧
        ((u8 (s.reg rb) : Int) + s6 o < 0 ∨ 255 < (u8 (s.reg rb) : Int) + s6 o))

/-- R151, R152 (decisions D10, D15; log entry 1: an error is a next state): a step that ends in an error writes `status` and `err_pc` and nothing else. -/
def Obligations.ErrorStepsChangeOnlyTheLatches : Prop :=
  ∀ (s t : State) (e : StepError), step s = .next t → t.status = .error e →
    t = { s with status := .error e, errPc := s.pc }

/-- R157: stepping again after an error raises the same error again and changes nothing, however often, and a reset
clears it. -/
def Obligations.ErrorsRepeatUntilReset : Prop :=
  ∀ (s t : State) (e : StepError), step s = .next t → t.status = .error e →
    (∀ n, Sys2Proof.core.run n t = .next t) ∧ t.resetBlock.status = .reset

/-- The model's invariant (canonical memories, a legal pc R27, the stack within its capacity R34, latches that agree with
the state R36, R41) holds after every step from every state that has it. -/
def Obligations.StepKeepsTheInvariant : Prop :=
  ∀ s t : State, s.Inv → step s = .next t → t.Inv

/-! ## Whole-machine rules -/

/-- R22: r0 reads 0x00 in every state, a write to it changes nothing at all, and the other effects of an instruction
whose destination is r0 are those it has with any other destination `q`. -/
def Obligations.R0IsHardwired : Prop :=
  (∀ s : State, s.reg .r0 = 0) ∧ (∀ (s : State) (v : Byte), s.setReg .r0 v = s) ∧
  ∀ (q : Reg) (s t : State),
    (∀ v, exec (.ldi q v) s = .next t → exec (.ldi .r0 v) s = .next { t with regs := s.regs }) ∧
    (∀ rb o, exec (.mld q rb o) s = .next t → exec (.mld .r0 rb o) s = .next { t with regs := s.regs }) ∧
    (∀ rb rc, exec (.add q rb rc) s = .next t → exec (.add .r0 rb rc) s = .next { t with regs := s.regs }) ∧
    (∀ rb rc, exec (.sub q rb rc) s = .next t → exec (.sub .r0 rb rc) s = .next { t with regs := s.regs }) ∧
    (∀ rb f rc, exec (.bit q rb f rc) s = .next t →
      exec (.bit .r0 rb f rc) s = .next { t with regs := s.regs }) ∧
    (∀ rb, exec (.rsh q rb) s = .next t → exec (.rsh .r0 rb) s = .next { t with regs := s.regs }) ∧
    ∀ v, exec (.adi .r0 v) s = .next t → t.regs = s.regs ∧ flagsOf (s8 v) t

/-- R33: add, sub, adi and bit write both flags whatever they were; every other instruction leaves both flags as they
were; and no instruction but brh reads them, so starting from other flags changes nothing else. -/
def Obligations.FlagsAreWrittenByFourAndReadByBrh : Prop :=
  ∀ (i : Instr) (s t : State) (z c : Bool), exec i s = .next t →
    (i.form ∈ [Form.add, .sub, .adi, .bit] → exec i (s.setFlags z c) = .next t) ∧
    (i.form ∉ [Form.add, .sub, .adi, .bit] → t.z = s.z ∧ t.c = s.c) ∧
    (i.form ∉ [Form.add, .sub, .adi, .bit, .brh] → exec i (s.setFlags z c) = .next (t.setFlags z c))

/-- R36: only hlt sets the Halted bit, hlt does set it, no step clears it, a reset clears it, and the snapshot shows
it. -/
def Obligations.OnlyHltHalts : Prop :=
  (∀ s t : State, step s = .next t → s.halted = false → (t.halted = true ↔ s.reaches .hlt)) ∧
  (∀ s t : State, step s = .next t → s.halted = true → t.halted = true) ∧
  ∀ s : State, s.resetBlock.halted = false ∧ s.snapshot.halted = s.halted

/-- R24, R25: a step that changes a register reached an instruction that names it as its destination. -/
def Obligations.OnlyDestinationsChange : Prop :=
  ∀ (s t : State) (r : Reg), step s = .next t → t.reg r ≠ s.reg r →
    r ≠ .r0 ∧ ((∃ v, s.reaches (.ldi r v) ∨ s.reaches (.adi r v)) ∨
      (∃ rb rc, s.reaches (.add r rb rc) ∨ s.reaches (.sub r rb rc)) ∨
      (∃ rb f rc, s.reaches (.bit r rb f rc)) ∨ (∃ rb, s.reaches (.rsh r rb)) ∨
      ∃ rb o, s.reaches (.mld r rb o))

/-- R38, R52: a step that changes a byte of data memory reached an mst whose effective address is that byte. -/
def Obligations.OnlyMstWritesMemory : Prop :=
  ∀ (s t : State) (a : Byte), step s = .next t → t.memRead a ≠ s.memRead a →
    ∃ ra rb o, s.reaches (.mst ra rb o) ∧ a = trunc8 (u8 (s.reg rb) + s6 o) ∧ t.memRead a = s.reg ra

/-- R37, R42, R51: no step, and so no run of steps, changes IMEM, IMAGE_LEN, DBG or a parameter. -/
def Obligations.ProgramIsNeverWritten : Prop :=
  ∀ (n : Nat) (s t : State), Sys2Proof.core.run n s = .next t → sameFixed s t

/-- R161: the debug lookup answers the line of a valid entry at p ≤ 1023 and nothing otherwise (p = 1024 and an empty
table included), asking it changes no state, and execution never depends on DBG. -/
def Obligations.DebugRomIsNeverRead : Prop :=
  (∀ (m : DebugRom) (p : PcVal) (l : Nat),
    DebugRom.lookup m p = some l ↔ p.toNat ≤ 1023 ∧ Store.get none m p.toNat = some l) ∧
  (∀ m : DebugRom, DebugRom.lookup m 1024 = none) ∧ (∀ p : PcVal, DebugRom.lookup [] p = none) ∧
  (∀ (s : State) (p : PcVal), respond (.correlate p) s = .next (s, .line (DebugRom.lookup s.dbg p))) ∧
  ∀ (s t : State) (d : DebugRom), step s = .next t → step { s with dbg := d } = .next { t with dbg := d }

/-- R35: the call stack is not in the snapshot, and what the stack holds shows only in where ret goes and in the two
stack errors. -/
def Obligations.StackIsHidden : Prop :=
  (∀ (s : State) (k : List IAddr), ({ s with stack := k } : State).snapshot = s.snapshot) ∧
  ∀ (i : Instr) (s t u : State) (k : List IAddr), exec i s = .next t → exec i { s with stack := k } = .next u →
    (i.form ≠ .ret → i.form ≠ .cal → u = { t with stack := k }) ∧
    (t.status.isError = false → u.status.isError = false → i.form = .cal → u.snapshot = t.snapshot) ∧
    (t.status.isError = false → u.status.isError = false → i.form = .ret →
      { u.snapshot with pc := t.snapshot.pc } = t.snapshot)

/-! ## Control flow -/

/-- R112 (decision D25): nop advances the pc and changes nothing else. -/
def Obligations.NopOnlyAdvances : Prop :=
  ∀ s : State, exec .nop s = .next { s with pc := s.pc + 1, status := .ok, errPc := 0 }

/-- R113 (decision D1 for the word, log entry 6; decision D11 for the later steps, log entry 1): hlt is 0x1000; it sets the
Halted bit and keeps the pc and everything else, and every later step reports STEP_WHILE_HALTED and changes nothing
else. -/
def Obligations.HltHaltsForGood : Prop :=
  encodeWord .hlt = 0x1000 ∧
  ∀ s : State, exec .hlt s = .next { s with halted := true, status := .halted, errPc := 0 } ∧
    ∀ n, Sys2Proof.core.run (n + 1) { s with halted := true, status := .halted, errPc := 0 } =
      .next { s with halted := true, status := .error .stepWhileHalted, errPc := s.pc }

/-- R114 (decisions D1, D2 for the word, log entry 6; decision D12 for the fetch error, log entry 1): jmp is
0x2000 | addr; it sets the pc to its target and changes nothing else; a target at or above IMAGE_LEN raises
FETCH_OUT_OF_IMAGE at the next step. -/
def Obligations.JmpSetsThePc : Prop :=
  ∀ (a : IAddr) (s : State),
    encodeWord (.jmp a) = 0x2000 ||| a.setWidth 16 ∧
    exec (.jmp a) s = .next { s with pc := a.setWidth 11, status := .ok, errPc := 0 } ∧
    (s.halted = false → s.imageLen.val ≤ a.toNat →
      step { s with pc := a.setWidth 11, status := .ok, errPc := 0 } =
        .next { s with pc := a.setWidth 11, status := .error .fetchOutOfImage, errPc := a.setWidth 11 })

/-- R115, R116 (decision D5): brh goes to its target exactly when its condition holds of the flags, else to the next
instruction, and changes nothing else. -/
def Obligations.BrhFollowsTheFlags : Prop :=
  ∀ (k : Cond) (a : IAddr) (s : State),
    exec (.brh k a) s = .next { s with
      pc := if (k = .eq ∧ s.z = true) ∨ (k = .ne ∧ s.z = false) ∨ (k = .ge ∧ s.c = false) ∨ (k = .lt ∧ s.c = true)
        then a.setWidth 11 else s.pc + 1
      status := .ok
      errPc := 0 }

/-- R116, R141: after a compare (`sub r0, rb, rc`) the four conditions are the signed comparisons of the two
registers. -/
def Obligations.BranchAfterCompareIsSigned : Prop :=
  ∀ (s t u : State) (rb rc : Reg) (a : IAddr) (k : Cond),
    exec (.sub .r0 rb rc) s = .next t → exec (.brh k a) t = .next u →
    u.pc = if (k = .eq ∧ s.reg rb = s.reg rc) ∨ (k = .ne ∧ s.reg rb ≠ s.reg rc) ∨
        (k = .ge ∧ s8 (s.reg rc) ≤ s8 (s.reg rb)) ∨ (k = .lt ∧ s8 (s.reg rb) < s8 (s.reg rc))
      then a.setWidth 11 else t.pc + 1

/-- R117 (decision D9): a cal with room on the stack pushes its own address and goes to its target; with a full stack
it raises STACK_OVERFLOW. -/
def Obligations.CalPushesItsOwnAddress : Prop :=
  ∀ (a : IAddr) (s : State),
    ((∀ n, s.config.stackDepth = some n → s.stack.length < n) →
      exec (.cal a) s = .next { s with
        stack := s.pc.setWidth 10 :: s.stack, pc := a.setWidth 11, status := .ok, errPc := 0 }) ∧
    (s.config.stackDepth = some s.stack.length →
      exec (.cal a) s = .next { s with status := .error .stackOverflow, errPc := s.pc })

/-- R118 (decision D1 for the word, log entry 6; the stack is held top first, log entry 14; decisions D10 and D12 for the
two errors, log entry 1): ret is 0x5000; it pops the top and goes to one past it; from 1023 that is 1024, where the next
step raises FETCH_OUT_OF_IMAGE; an empty stack raises STACK_UNDERFLOW, and so does every later step there. -/
def Obligations.RetGoesPastTheSavedAddress : Prop :=
  encodeWord .ret = 0x5000 ∧
  (∀ (s : State) (v : IAddr) (rest : List IAddr), s.stack = v :: rest →
    exec .ret s = .next { s with
      stack := rest, pc := BitVec.ofNat 11 (v.toNat + 1), status := .ok, errPc := 0 }) ∧
  (∀ s : State, s.halted = false → s.pc = 1024 →
    step s = .next { s with status := .error .fetchOutOfImage, errPc := 1024 }) ∧
  ∀ s : State, s.stack = [] →
    exec .ret s = .next { s with status := .error .stackUnderflow, errPc := s.pc } ∧
    (s.reaches .ret → ∀ n, Sys2Proof.core.run (n + 1) s =
      .next { s with status := .error .stackUnderflow, errPc := s.pc })

/-- R117, R118, E9: a ret that meets the stack its cal left goes to one past the cal and restores the stack the cal
found. -/
def Obligations.RetUndoesCal : Prop :=
  ∀ (a : IAddr) (s t u v : State), s.pc.toNat < 1024 → exec (.cal a) s = .next t → t.status = .ok →
    u.stack = t.stack → exec .ret u = .next v →
    v.pc = s.pc + 1 ∧ v.stack = s.stack ∧ v.status = .ok

/-! ## Port and memory instructions -/

/-- R126, R127 (decision D4; log entry 1): pld and pst report NOT_IMPLEMENTED with their own pc and change nothing
else. -/
def Obligations.PortInstructionsReportNotImplemented : Prop :=
  ∀ (ra : Reg) (port : Byte) (s : State),
    exec (.pld ra port) s = .next { s with status := .error .notImplemented, errPc := s.pc } ∧
    exec (.pst ra port) s = .next { s with status := .error .notImplemented, errPc := s.pc }

/-- R128, R58 to R60 (decisions D4, D8, D20): mld loads the byte at base + offset modulo 256 into its destination and
changes nothing else, under the wrap policy always and under the fault policy where the raw address is in range. -/
def Obligations.MldLoadsTheByte : Prop :=
  ∀ (ra rb : Reg) (o : Off) (s : State),
    s.config.eaPolicy = .wrap ∨ (0 ≤ (u8 (s.reg rb) : Int) + s6 o ∧ (u8 (s.reg rb) : Int) + s6 o ≤ 255) →
    ∃ t, exec (.mld ra rb o) s = .next t ∧
      wroteOnly ra (s.memRead (trunc8 (u8 (s.reg rb) + s6 o))) s t ∧ sameFlags s t

/-- R129, R58 to R60 (decisions D4, D8, D20): mst stores its data register at base + offset modulo 256; every other byte,
every register, both flags and everything else are as before. -/
def Obligations.MstStoresTheByte : Prop :=
  ∀ (ra rb : Reg) (o : Off) (s : State),
    s.config.eaPolicy = .wrap ∨ (0 ≤ (u8 (s.reg rb) : Int) + s6 o ∧ (u8 (s.reg rb) : Int) + s6 o ≤ 255) →
    ∃ t, exec (.mst ra rb o) s = .next t ∧
      t.memRead (trunc8 (u8 (s.reg rb) + s6 o)) = s.reg ra ∧
      (∀ a, a ≠ trunc8 (u8 (s.reg rb) + s6 o) → t.memRead a = s.memRead a) ∧
      sameRegs s t ∧ sameFlags s t ∧ t.stack = s.stack ∧ sameFixed s t ∧ t.pc = s.pc + 1 ∧ completedOk s t

/-- R60, R128, R129 (decision D8): under the fault policy an access whose raw address is out of range raises
MEM_OUT_OF_RANGE and changes nothing else. -/
def Obligations.OutOfRangeAccessTraps : Prop :=
  ∀ (ra rb : Reg) (o : Off) (s : State), s.config.eaPolicy = .fault →
    ((u8 (s.reg rb) : Int) + s6 o < 0 ∨ 255 < (u8 (s.reg rb) : Int) + s6 o) →
    exec (.mld ra rb o) s = .next { s with status := .error .memOutOfRange, errPc := s.pc } ∧
    exec (.mst ra rb o) s = .next { s with status := .error .memOutOfRange, errPc := s.pc }

/-- R63, R178: a load after a store with the same effective address, whatever base and offset it comes from, completes
with the stored byte in its destination (r0 stays 0x00, R22). -/
def Obligations.LoadAfterStoreGivesTheByte : Prop :=
  ∀ (ra rb rd rb' : Reg) (o o' : Off) (s t : State),
    exec (.mst ra rb o) s = .next t → t.status = .ok → t.address rb' o' = s.address rb o →
    ∃ u, exec (.mld rd rb' o') t = .next u ∧ u.status = .ok ∧ u.reg rd = if rd = .r0 then 0 else s.reg ra

/-- R59 (decision D8): under wrap the effective address is the low 8 bits of an 8-bit adder fed the base and the
sign-extended offset, whether the base is read signed or unsigned. -/
def Obligations.WrappedAddressIsAByteSum : Prop :=
  ∀ (base : Byte) (o : Off),
    effectiveAddress .wrap base o = some (base + o.signExtend 8) ∧
    trunc8 (s8 base + s6 o) = trunc8 (u8 base + s6 o)

/-- R58, R60 (decisions D8, D20): the raw address lies in [-32,286]; under fault an address is given exactly when the raw
address is in [0,255], and it is that address. -/
def Obligations.FaultPolicyAddressIsExact : Prop :=
  ∀ (base : Byte) (o : Off), -32 ≤ rawEa base o ∧ rawEa base o ≤ 286 ∧
    (effectiveAddress .fault base o = none ↔ rawEa base o < 0 ∨ 255 < rawEa base o) ∧
    ∀ a, effectiveAddress .fault base o = some a → (a.toNat : Int) = (u8 base : Int) + s6 o

/-! ## Execute unit -/

/-- R138 (decisions D1, D2 for the word, log entry 6): ldi is 0xA000 | ra << 9 | imm; it writes its immediate and changes
no flag. -/
def Obligations.LdiWritesTheImmediate : Prop :=
  ∀ (ra : Reg) (v : Byte) (s : State),
    encodeWord (.ldi ra v) = 0xA000 ||| ra.toBits.setWidth 16 <<< 9 ||| v.setWidth 16 ∧
    ∃ t, exec (.ldi ra v) s = .next t ∧ wroteOnly ra v s t ∧ sameFlags s t

/-- R139, R136, R137 (decisions D1, D2 for the word, log entry 6): adi is 0xB000 | ra << 9 | imm; it adds the signed
immediate to its register; Z and C come from the exact sum, which lies in
[-256,254]. -/
def Obligations.AdiAddsTheImmediate : Prop :=
  ∀ (ra : Reg) (v : Byte) (s : State),
    encodeWord (.adi ra v) = 0xB000 ||| ra.toBits.setWidth 16 <<< 9 ||| v.setWidth 16 ∧
    -256 ≤ s8 (s.reg ra) + s8 v ∧ s8 (s.reg ra) + s8 v ≤ 254 ∧
    ∃ t, exec (.adi ra v) s = .next t ∧
      wroteOnly ra (trunc8 (s8 (s.reg ra) + s8 v)) s t ∧ flagsOf (s8 (s.reg ra) + s8 v) t

/-- R140, R136, R137 (decisions D1, D2 for the word, log entry 6): add is 0xC000 | ra << 9 | rb << 6 | rc; it writes the
truncated signed sum; Z and C come from the exact sum, which lies in
[-256,254]. -/
def Obligations.AddWritesTheSum : Prop :=
  ∀ (ra rb rc : Reg) (s : State),
    encodeWord (.add ra rb rc) =
      0xC000 ||| ra.toBits.setWidth 16 <<< 9 ||| rb.toBits.setWidth 16 <<< 6 ||| rc.toBits.setWidth 16 ∧
    -256 ≤ s8 (s.reg rb) + s8 (s.reg rc) ∧ s8 (s.reg rb) + s8 (s.reg rc) ≤ 254 ∧
    ∃ t, exec (.add ra rb rc) s = .next t ∧
      wroteOnly ra (trunc8 (s8 (s.reg rb) + s8 (s.reg rc))) s t ∧ flagsOf (s8 (s.reg rb) + s8 (s.reg rc)) t

/-- R141 (decision D4): sub writes the truncated signed difference, first source minus second; Z is set exactly when the
sources are equal and C exactly when the first is the lesser. -/
def Obligations.SubWritesTheDifference : Prop :=
  ∀ (ra rb rc : Reg) (s : State),
    ∃ t, exec (.sub ra rb rc) s = .next t ∧
      wroteOnly ra (trunc8 (s8 (s.reg rb) - s8 (s.reg rc))) s t ∧
      flagsOf (s8 (s.reg rb) - s8 (s.reg rc)) t ∧
      (t.z = true ↔ s.reg rb = s.reg rc) ∧ (t.c = true ↔ s8 (s.reg rb) < s8 (s.reg rc))

/-- R142 to R144 (decisions D6, D7): bit writes the selected function of its sources, each bit from the same bit of both;
Z is set exactly when the result is 0x00; C is the result's top bit under the signed reading and the selector's value
at (0,0) under the unsigned one. -/
def Obligations.BitWritesTheSelectedFunction : Prop :=
  ∀ (ra rb rc : Reg) (f : AluSel) (s : State),
    ∃ (t : State) (res : Byte), exec (.bit ra rb f rc) s = .next t ∧
      (∀ i, i < 8 → res.getLsbD i = selectBit f ((s.reg rb).getLsbD i) ((s.reg rc).getLsbD i)) ∧
      wroteOnly ra res s t ∧ (t.z = true ↔ res = 0) ∧
      (s.config.bitwiseCarry = .signed → t.c = res.getLsbD 7) ∧
      (s.config.bitwiseCarry = .unsigned → t.c = selectBit f false false)

/-- R143 (decision D6): the truth tables of the eight selectors, results in the order (0,0), (0,1), (1,0), (1,1). -/
def Obligations.SelectorTruthTables : Prop :=
  ∀ f : AluSel,
    [selectBit f false false, selectBit f false true, selectBit f true false, selectBit f true true] =
      match f with
      | .or => [false, true, true, true]
      | .and => [false, false, false, true]
      | .xor => [false, true, true, false]
      | .implies => [true, true, false, true]
      | .nor => [true, false, false, false]
      | .nand => [true, true, true, false]
      | .xnor => [true, false, false, true]
      | .nimplies => [false, false, true, false]

/-- R144 (decision D7): the two readings of the carry of bit. On sign-extended operands of any greater width the exact
result is the sign extension of the 8-bit result; on zero-extended ones every bit above bit 7 is K_sel. -/
def Obligations.BitwiseCarryReadings : Prop :=
  ∀ (f : AluSel) (p q : Byte) (n : Nat), 8 < n →
    selectVec f (p.signExtend n) (q.signExtend n) = (selectVec f p q).signExtend n ∧
    ((selectVec f (p.signExtend n) (q.signExtend n)).toInt < 0 ↔ bitCarry .signed f (selectVec f p q) = true) ∧
    ∀ k, 8 ≤ k → k < n →
      (selectVec f (p.setWidth n) (q.setWidth n)).getLsbD k = bitCarry .unsigned f (selectVec f p q)

/-- R145 (decision D4): rsh writes its source's unsigned reading divided by 2 and rounded down, which is the source's bits
[7:1] with a 0 above them, and changes no flag. -/
def Obligations.RshHalvesTheByte : Prop :=
  ∀ (ra rb : Reg) (s : State),
    ∃ (t : State) (res : Byte), exec (.rsh ra rb) s = .next t ∧
      res.toNat = (s.reg rb).toNat / 2 ∧ res = 0#1 ++ (s.reg rb).extractLsb' 1 7 ∧
      wroteOnly ra res s t ∧ sameFlags s t

/-- R147: what mov (`add a,b,r0`) and lsh (`add a,b,b`) do to the flags: mov copies the source, lsh gives twice the
source modulo 256; each sets Z exactly when its result is 0x00 and C to the top bit of the source. -/
def Obligations.MovAndLshSetTheFlags : Prop :=
  ∀ (ra rb : Reg) (s : State),
    (∃ t, exec (.add ra rb .r0) s = .next t ∧ wroteOnly ra (s.reg rb) s t ∧
      (t.z = true ↔ s.reg rb = 0) ∧ t.c = (s.reg rb).getLsbD 7) ∧
    ∃ t, exec (.add ra rb rb) s = .next t ∧ wroteOnly ra (s.reg rb <<< 1) s t ∧
      (t.z = true ↔ s.reg rb <<< 1 = 0) ∧ t.c = (s.reg rb).getLsbD 7

/-! ## The assembler -/

/-- R96: an immediate operand that does not parse is malformed, one outside [-128,255] is out of range, and any other is
encoded as its value modulo 256. -/
def Obligations.ImmediatesAreMasked : Prop :=
  ∀ t : Token,
    (parseLiteral t = none → immOperand t = .error ⟨.malformedOperand, t⟩) ∧
    ∀ v, parseLiteral t = some v →
      (v < -128 ∨ 255 < v → immOperand t = .error ⟨.outOfRange, t⟩) ∧
      (-128 ≤ v → v ≤ 255 → ∃ b : Byte, immOperand t = .ok b ∧ (b.toNat : Int) = v % 256)

/-- R92: the expansion of each of the 14 pseudo-instructions, for any operands. -/
def Obligations.PseudoInstructionsExpand : Prop :=
  ∀ a b c : Token,
    resolveForm "cmp".toList [a, b] = .ok (.sub, ["r0".toList, a, b]) ∧
    resolveForm "mov".toList [a, b] = .ok (.add, [a, b, "r0".toList]) ∧
    resolveForm "lsh".toList [a, b] = .ok (.add, [a, b, b]) ∧
    resolveForm "inc".toList [a] = .ok (.adi, [a, "1".toList]) ∧
    resolveForm "dec".toList [a] = .ok (.adi, [a, "-1".toList]) ∧
    resolveForm "orr".toList [a, b, c] = .ok (.bit, [a, b, "or".toList, c]) ∧
    resolveForm "and".toList [a, b, c] = .ok (.bit, [a, b, "and".toList, c]) ∧
    resolveForm "xor".toList [a, b, c] = .ok (.bit, [a, b, "xor".toList, c]) ∧
    resolveForm "imp".toList [a, b, c] = .ok (.bit, [a, b, "implies".toList, c]) ∧
    resolveForm "nor".toList [a, b, c] = .ok (.bit, [a, b, "nor".toList, c]) ∧
    resolveForm "nnd".toList [a, b, c] = .ok (.bit, [a, b, "nand".toList, c]) ∧
    resolveForm "xnr".toList [a, b, c] = .ok (.bit, [a, b, "xnor".toList, c]) ∧
    resolveForm "nmp".toList [a, b, c] = .ok (.bit, [a, b, "nimplies".toList, c]) ∧
    resolveForm "not".toList [a, b] = .ok (.bit, [a, b, "nor".toList, "r0".toList])

/-- R103, R105, R106: a run that succeeds, for any encoding, gives at most 1024 words, and its debug map has one entry an instruction, the
k-th at address k. -/
def Obligations.AssembledImagesFit : Prop :=
  ∀ (e : EncodingTables) (path source : String) (a : Assembly), assemble e path source = .ok a →
    a.words.length ≤ 1024 ∧ a.debugMap.instructions.map LineEntry.address = List.range a.words.length

/-- R104 to R106: a failed run prints `<path>:<line>: <message>`, the line being one of the source and the message naming
the token of an operand error; it exits with status 1 and writes no file. A run that succeeds prints no error and writes
the image, two bytes a word, and the debug map exactly where the debug option was given. Lines are counted from 1 (R160,
decision D18), and a source has as many as line feeds cut it into: that a line ends at a line feed is the model's choice
(DESIGN CHOICE, log entry 13). The words of the message and the other exit status are free (DESIGN CHOICE, log entry 17,
which also says which errors are an operand's). -/
def Obligations.AssemblerRunsPrintOrWrite : Prop :=
  ∀ (e : EncodingTables) (debug : Bool) (path source : String),
    (∀ r, assemble e path source = .error r →
      1 ≤ r.failure.line ∧ r.failure.line ≤ (splitAtChar '\n' source.toList).length ∧
      ∃ message, runAssembler e debug path source =
          { printed := some (path ++ ":" ++ Nat.repr r.failure.line ++ ": " ++ message)
            exitStatus := 1, imageFile := none, debugFile := none } ∧
        (r.failure.fault.error.ofOperand = true → ∃ before after,
          message = before ++ String.ofList r.failure.fault.token ++ after)) ∧
    ∀ a, assemble e path source = .ok a → ∃ status,
      runAssembler e debug path source =
        { printed := none, exitStatus := status, imageFile := some (fileOfWords a.words)
          debugFile := if debug then some a.debugMap else none }

/-! ## The encoding tables -/

/-- R88 (decisions D2, D3): the used bits of each format under the decided layout. -/
def Obligations.UsedBitsOfTheDecidedLayout : Prop :=
  [Format.n, .j, .b, .i, .m, .r, .l, .s].map (fun f => f.usedBits FieldLayout.standard) =
    [0xF000, 0xF3FF, 0xFFFF, 0xFEFF, 0xFFFF, 0xFFC7, 0xFFFF, 0xFFC0]

/-- R10 (decision D1): no meaning depends on the encoding tables. Under other tables an instruction does the same, to
a state that differs in the tables alone; and a step is `exec` of the instruction that the new tables read. -/
def Obligations.MeaningsDoNotDependOnTheTables : Prop :=
  ∀ (s : State) (e : EncodingTables),
    (∀ (i : Instr) (t : State), exec i s = .next t →
      exec i { s with config := { s.config with tables := e } } =
        .next { t with config := { t.config with tables := e } }) ∧
    ∀ i : Instr, s.halted = false → s.pc.toNat < s.imageLen.val →
      decodeWith e (ImageRom.word s.imem s.pc.toNat) = .ok i →
      step { s with config := { s.config with tables := e } } =
        exec i { s with config := { s.config with tables := e } }
end

