-- ==== Sys2Proof/Laws/Assembler.lean ====
section
/-! SUPPORT. What a run of the assembler leaves, by how its two passes end, and where its errors lie. -/

namespace Sys2Proof.Machine

variable {t : EncodingTables} {debug : Bool} {path source : String}

/-- A failed run. -/
theorem runAssembler_error {r : AsmReport} (h : assemble t path source = .error r) :
    runAssembler t debug path source =
      { printed := some (r.printed source), exitStatus := 1, imageFile := none, debugFile := none } := by
  simp [runAssembler, h]

/-- A run that succeeds. -/
theorem runAssembler_ok {a : Assembly} (h : assemble t path source = .ok a) :
    runAssembler t debug path source =
      { printed := none, exitStatus := Config.successStatus path source, imageFile := some (fileOfWords a.words),
        debugFile := if debug then some a.debugMap else none } := by
  simp [runAssembler, h]

/-- Everything a failed assembly can be: a failure of pass 1, or of pass 2 under the table pass 1 made. -/
theorem assemble_error {r : AsmReport} (h : assemble t path source = .error r) :
    r.path = path ∧
      (passOne 0 [] (readLines 1 (splitAtChar '\n' source.toList)) = .error r.failure ∨
        ∃ labels, passOne 0 [] (readLines 1 (splitAtChar '\n' source.toList)) = .ok labels ∧
          passTwo t labels 0 (readLines 1 (splitAtChar '\n' source.toList)) = .error r.failure) := by
  simp only [assemble] at h
  split at h
  · cases h; simp_all
  · split at h
    · cases h; simp_all
    · cases h

/-- Lines are numbered from the given number on. -/
theorem readLines_number {n : Nat} {ls : List Token} {l : SourceLine} (h : l ∈ readLines n ls) :
    n ≤ l.number ∧ l.number < n + ls.length := by
  induction ls generalizing n with
  | nil => simp [readLines] at h
  | cons x xs ih =>
    rw [readLines, List.mem_cons] at h
    rcases h with rfl | h
    · simp [readLine]
    · have := ih h
      simp; omega

/-- A failure to bind a line's labels is at that line. -/
theorem bindLabels_line {line addr : Nat} {tab : LabelTable} {ts : List Token} {e : AsmFailure}
    (h : bindLabels line addr tab ts = .error e) : e.line = line := by
  induction ts generalizing tab with
  | nil => cases h
  | cons x xs ih =>
    rw [bindLabels] at h
    split at h
    · cases h; rfl
    · exact ih h

/-- A failure of pass 1 is at one of its lines. -/
theorem passOne_line {addr : Nat} {tab : LabelTable} {ls : List SourceLine} {e : AsmFailure}
    (h : passOne addr tab ls = .error e) : ∃ l ∈ ls, e.line = l.number := by
  induction ls generalizing addr tab with
  | nil => cases h
  | cons x xs ih =>
    rw [passOne] at h
    split at h
    · rename_i hb
      cases h
      exact ⟨x, by simp, bindLabels_line hb⟩
    · obtain ⟨l, hl, he⟩ := ih h
      exact ⟨l, by simp [hl], he⟩

/-- A failure of pass 2 is at one of its lines. -/
theorem passTwo_line {labels : LabelTable} {addr : Nat} {ls : List SourceLine} {e : AsmFailure}
    (h : passTwo t labels addr ls = .error e) : ∃ l ∈ ls, e.line = l.number := by
  induction ls generalizing addr e with
  | nil => cases h
  | cons x xs ih =>
    have here : ∀ f, (⟨x.number, f⟩ : AsmFailure) = e → ∃ l ∈ x :: xs, e.line = l.number := by
      rintro f rfl
      exact ⟨x, by simp, rfl⟩
    have later : ∀ a, passTwo t labels a xs = .error e → ∃ l ∈ x :: xs, e.line = l.number := by
      intro a ha
      obtain ⟨l, hl, he⟩ := ih ha
      exact ⟨l, by simp [hl], he⟩
    rw [passTwo] at h
    split at h
    · exact later _ h
    · split at h
      · injection h with h
        exact here _ h
      · split at h
        · injection h with h
          exact here _ h
        · split at h
          · rename_i hr
            injection h with h
            exact later _ (h ▸ hr)
          · cases h

end Sys2Proof.Machine
end

