-- ==== Sys2Proof/Laws/Encoding.lean ====
section
/-! SUPPORT. Reading a field back from a word that fields were placed in (Decode.lean), the codes of the operand
kinds, field masks, and what well-formed tables give. -/

namespace Sys2Proof

/-! ## Fields -/

theorem fieldAt_or (lo n : Nat) (x y : Word) : fieldAt lo n (x ||| y) = fieldAt lo n x ||| fieldAt lo n y := by
  apply BitVec.eq_of_getLsbD_eq
  intro i hi
  simp [fieldAt, hi]

@[simp] theorem fieldAt_zero (lo n : Nat) : fieldAt lo n (0 : Word) = 0 := by
  apply BitVec.eq_of_getLsbD_eq
  intro i hi
  simp [fieldAt]

/-- A field is read back from its own place. -/
theorem fieldAt_placeField_same {lo n : Nat} (v : BitVec n) (h : lo + n ≤ 16) :
    fieldAt lo n (placeField lo v) = v := by
  apply BitVec.eq_of_getLsbD_eq
  intro i hi
  have h1 : lo + i < 16 := by omega
  simp [fieldAt, placeField, hi, h1]

/-- A field's place holds nothing of a field placed elsewhere. -/
theorem fieldAt_placeField_other {lo n lo' n' : Nat} (v : BitVec n') (h : lo + n ≤ lo' ∨ lo' + n' ≤ lo) :
    fieldAt lo n (placeField lo' v) = 0 := by
  apply BitVec.eq_of_getLsbD_eq
  intro i hi
  simp only [fieldAt, placeField, BitVec.getLsbD_extractLsb', BitVec.getLsbD_shiftLeft, BitVec.getLsbD_setWidth,
    hi, decide_true, Bool.true_and]
  rcases h with h | h
  · simp [show lo + i < lo' by omega]
  · have : v.getLsbD (lo + i - lo') = false := BitVec.getLsbD_of_ge v _ (by omega)
    simp [this]

/-- Operand fields stay below the opcode field. -/
theorem opcode_placeField {lo n : Nat} (v : BitVec n) (h : lo + n ≤ 12) : fieldAt 12 4 (placeField lo v) = 0 :=
  fieldAt_placeField_other v (.inr h)

theorem opcode_or {x y : Word} (hx : fieldAt 12 4 x = 0) (hy : fieldAt 12 4 y = 0) :
    fieldAt 12 4 (x ||| y) = 0 := by
  rw [fieldAt_or, hx, hy]
  rfl

/-! ## Codes -/

@[simp] theorem Reg.ofBits_toBits (r : Reg) : Reg.ofBits r.toBits = r := by cases r <;> rfl
@[simp] theorem Reg.toBits_ofBits (v : BitVec 3) : (Reg.ofBits v).toBits = v := by revert v; decide
@[simp] theorem Cond.ofBits_toBits (c : Cond) : Cond.ofBits c.toBits = c := by cases c <;> rfl
@[simp] theorem Cond.toBits_ofBits (v : BitVec 2) : (Cond.ofBits v).toBits = v := by revert v; decide
@[simp] theorem AluSel.ofBits_toBits (a : AluSel) : AluSel.ofBits a.toBits = a := by cases a <;> rfl
@[simp] theorem AluSel.toBits_ofBits (v : BitVec 3) : (AluSel.ofBits v).toBits = v := by revert v; decide

/-! ## Masks -/

/-- A bit of a field's mask. -/
theorem getLsbD_fieldMask (lo n k : Nat) :
    (fieldMask lo n).getLsbD k = (decide (k < 16) && decide (lo ≤ k) && decide (k < lo + n)) := by
  simp only [fieldMask, placeField, BitVec.getLsbD_shiftLeft, BitVec.getLsbD_setWidth, BitVec.getLsbD_allOnes]
  by_cases h1 : k < 16
  · by_cases h2 : k < lo
    · simp [h2]
    · simp [h1, h2, show lo ≤ k by omega, show k - lo < 16 by omega, show k - lo < n ↔ k < lo + n by omega]
  · simp [h1]

/-- A word's field put back at its place is the word under the field's mask. -/
theorem placeField_fieldAt (lo n : Nat) (w : Word) : placeField lo (fieldAt lo n w) = w &&& fieldMask lo n := by
  apply BitVec.eq_of_getLsbD_eq
  intro k hk
  simp only [BitVec.getLsbD_and, getLsbD_fieldMask, placeField, fieldAt, BitVec.getLsbD_shiftLeft,
    BitVec.getLsbD_setWidth, BitVec.getLsbD_extractLsb']
  by_cases h2 : k < lo
  · simp [h2]
  · have h3 : k - lo < n ↔ k < lo + n := by omega
    by_cases h4 : k < lo + n <;> simp [hk, h2, h3, h4, show lo + (k - lo) = k by omega, show k - lo < 16 by omega,
      show lo ≤ k by omega]

/-- Words that agree under a field's mask have the same field. -/
theorem fieldAt_congr {lo n : Nat} {w w' : Word} (hn : lo + n ≤ 16)
    (h : w' &&& fieldMask lo n = w &&& fieldMask lo n) : fieldAt lo n w' = fieldAt lo n w := by
  rw [← placeField_fieldAt, ← placeField_fieldAt] at h
  rw [← fieldAt_placeField_same (fieldAt lo n w') hn, h, fieldAt_placeField_same _ hn]

/-! ## The tables of an encoding -/

/-- The form with a given opcode number, in a legal opcode map: there is one, and it has that number. -/
theorem opcodeMap_some {m : OpcodeMap} (h : opcodeMapOk m = true) (v : BitVec 4) :
    ∃ f, m[v.toNat]? = some f ∧ f.opcodeIn m = v := by
  simp only [opcodeMapOk, Bool.and_eq_true, decide_eq_true_eq, List.all_eq_true] at h
  obtain ⟨hlen, hall⟩ := h
  have hperm : Form.all.Perm m :=
    (List.Nodup.subperm (by decide) fun f hf => hall f hf).perm_of_length_le (by rw [hlen]; decide)
  have hnodup : m.Nodup := hperm.nodup_iff.mp (by decide)
  have hlt : v.toNat < m.length := by rw [hlen]; exact v.isLt
  exact ⟨m[v.toNat], List.getElem?_eq_getElem hlt, by
    rw [Form.opcodeIn, List.Nodup.idxOf_getElem hnodup, BitVec.ofNat_toNat, BitVec.setWidth_eq]⟩

/-- A legal opcode map at a form's number is that form. -/
theorem opcodeMap_opcodeIn {m : OpcodeMap} (h : opcodeMapOk m = true) (f : Form) :
    m[(f.opcodeIn m).toNat]? = some f := by
  simp only [opcodeMapOk, Bool.and_eq_true, decide_eq_true_eq, List.all_eq_true] at h
  have hf : m.idxOf f < m.length := List.idxOf_lt_length_iff.mpr (h.2 f (by cases f <;> decide))
  have hmod : (f.opcodeIn m).toNat = m.idxOf f := by
    simp only [Form.opcodeIn, BitVec.toNat_ofNat]; omega
  rw [hmod, List.getElem?_eq_getElem hf, List.getElem_idxOf hf]

/-- The opcode of a legal layout is bits [15:12] (R71). -/
theorem FieldLayout.op_of_wf {l : FieldLayout} (h : l.wf = true) : l.op = 12 := by
  simp only [FieldLayout.wf, Bool.and_eq_true, decide_eq_true_eq] at h
  exact h.1

/-- What a legal layout says of one format: its fields lie inside the word and do not overlap (R71). -/
theorem FieldLayout.used_of_wf {l : FieldLayout} (h : l.wf = true) (f : Format) :
    (∀ p ∈ l.used f, p.1 + p.2 ≤ 16) ∧ (l.used f).Pairwise fun p q => p.1 + p.2 ≤ q.1 ∨ q.1 + q.2 ≤ p.1 := by
  simp only [FieldLayout.wf, Bool.and_eq_true, decide_eq_true_eq, List.all_eq_true] at h
  exact h.2 f (by cases f <;> decide)

theorem EncodingTables.wf_iff (t : EncodingTables) :
    t.wf = true ↔ opcodeMapOk t.opcodeMap = true ∧ t.layout.wf = true := by
  simp [EncodingTables.wf]

theorem Config.wf_iff (c : Config) : c.wf = true ↔ c.stackDepth ≠ some 0 ∧ c.tables.wf = true := by
  simp [Config.wf]

/-- What decoding answers where the opcode has a form: that form with the fields' operands. -/
theorem decodeWith_some {t : EncodingTables} {w : Word} {f : Form}
    (h : t.opcodeMap[(fieldAt t.layout.op 4 w).toNat]? = some f) :
    decodeWith t w = .ok (f.instr (decodeFields t.layout w)) := by
  have h' : t.opcodeMap[(decodeFields t.layout w).op.toNat]? = some f := h
  simp [decodeWith, h']

/-- What decoding answers where the opcode has no form. -/
theorem decodeWith_none {t : EncodingTables} {w : Word}
    (h : t.opcodeMap[(fieldAt t.layout.op 4 w).toNat]? = none) : decodeWith t w = .error .unknownOpcode := by
  have h' : t.opcodeMap[(decodeFields t.layout w).op.toNat]? = none := h
  simp [decodeWith, h']

/-- The form of a decoded instruction is the one its word's fields were given to. -/
@[simp] theorem Form.instr_form (f : Form) (x : Fields) : (f.instr x).form = f := by cases f <;> rfl

end Sys2Proof
end

