-- ==== Sys2Proof/Laws/State.lean ====
section
/-! SUPPORT. One lemma for each field of each named update of the state, and for the two readings `reg` and
`memRead` where the update leaves them alone. -/

namespace Sys2Proof.Machine

variable (s : State)

/-! ## `State.setReg` -/

@[simp] theorem State.setReg_config (r : Reg) (v : Byte) : (s.setReg r v).config = s.config := rfl
@[simp] theorem State.setReg_regs (r : Reg) (v : Byte) : (s.setReg r v).regs = s.regs.write r v := rfl
@[simp] theorem State.setReg_pc (r : Reg) (v : Byte) : (s.setReg r v).pc = s.pc := rfl
@[simp] theorem State.setReg_z (r : Reg) (v : Byte) : (s.setReg r v).z = s.z := rfl
@[simp] theorem State.setReg_c (r : Reg) (v : Byte) : (s.setReg r v).c = s.c := rfl
@[simp] theorem State.setReg_stack (r : Reg) (v : Byte) : (s.setReg r v).stack = s.stack := rfl
@[simp] theorem State.setReg_halted (r : Reg) (v : Byte) : (s.setReg r v).halted = s.halted := rfl
@[simp] theorem State.setReg_dmem (r : Reg) (v : Byte) : (s.setReg r v).dmem = s.dmem := rfl
@[simp] theorem State.setReg_status (r : Reg) (v : Byte) : (s.setReg r v).status = s.status := rfl
@[simp] theorem State.setReg_errPc (r : Reg) (v : Byte) : (s.setReg r v).errPc = s.errPc := rfl
@[simp] theorem State.setReg_imem (r : Reg) (v : Byte) : (s.setReg r v).imem = s.imem := rfl
@[simp] theorem State.setReg_imageLen (r : Reg) (v : Byte) : (s.setReg r v).imageLen = s.imageLen := rfl
@[simp] theorem State.setReg_dbg (r : Reg) (v : Byte) : (s.setReg r v).dbg = s.dbg := rfl
@[simp] theorem State.setReg_memRead (r : Reg) (v : Byte) (x : Byte) : (s.setReg r v).memRead x = s.memRead x := rfl

/-! ## `State.setFlags` -/

@[simp] theorem State.setFlags_config (z c : Bool) : (s.setFlags z c).config = s.config := rfl
@[simp] theorem State.setFlags_regs (z c : Bool) : (s.setFlags z c).regs = s.regs := rfl
@[simp] theorem State.setFlags_pc (z c : Bool) : (s.setFlags z c).pc = s.pc := rfl
@[simp] theorem State.setFlags_z (z c : Bool) : (s.setFlags z c).z = z := rfl
@[simp] theorem State.setFlags_c (z c : Bool) : (s.setFlags z c).c = c := rfl
@[simp] theorem State.setFlags_stack (z c : Bool) : (s.setFlags z c).stack = s.stack := rfl
@[simp] theorem State.setFlags_halted (z c : Bool) : (s.setFlags z c).halted = s.halted := rfl
@[simp] theorem State.setFlags_dmem (z c : Bool) : (s.setFlags z c).dmem = s.dmem := rfl
@[simp] theorem State.setFlags_status (z c : Bool) : (s.setFlags z c).status = s.status := rfl
@[simp] theorem State.setFlags_errPc (z c : Bool) : (s.setFlags z c).errPc = s.errPc := rfl
@[simp] theorem State.setFlags_imem (z c : Bool) : (s.setFlags z c).imem = s.imem := rfl
@[simp] theorem State.setFlags_imageLen (z c : Bool) : (s.setFlags z c).imageLen = s.imageLen := rfl
@[simp] theorem State.setFlags_dbg (z c : Bool) : (s.setFlags z c).dbg = s.dbg := rfl
@[simp] theorem State.setFlags_reg (z c : Bool) (q : Reg) : (s.setFlags z c).reg q = s.reg q := rfl
@[simp] theorem State.setFlags_memRead (z c : Bool) (x : Byte) : (s.setFlags z c).memRead x = s.memRead x := rfl

/-! ## `State.memWrite` -/

@[simp] theorem State.memWrite_config (a v : Byte) : (s.memWrite a v).config = s.config := rfl
@[simp] theorem State.memWrite_regs (a v : Byte) : (s.memWrite a v).regs = s.regs := rfl
@[simp] theorem State.memWrite_pc (a v : Byte) : (s.memWrite a v).pc = s.pc := rfl
@[simp] theorem State.memWrite_z (a v : Byte) : (s.memWrite a v).z = s.z := rfl
@[simp] theorem State.memWrite_c (a v : Byte) : (s.memWrite a v).c = s.c := rfl
@[simp] theorem State.memWrite_stack (a v : Byte) : (s.memWrite a v).stack = s.stack := rfl
@[simp] theorem State.memWrite_halted (a v : Byte) : (s.memWrite a v).halted = s.halted := rfl
@[simp] theorem State.memWrite_dmem (a v : Byte) : (s.memWrite a v).dmem = Memory.write s.dmem a v := rfl
@[simp] theorem State.memWrite_status (a v : Byte) : (s.memWrite a v).status = s.status := rfl
@[simp] theorem State.memWrite_errPc (a v : Byte) : (s.memWrite a v).errPc = s.errPc := rfl
@[simp] theorem State.memWrite_imem (a v : Byte) : (s.memWrite a v).imem = s.imem := rfl
@[simp] theorem State.memWrite_imageLen (a v : Byte) : (s.memWrite a v).imageLen = s.imageLen := rfl
@[simp] theorem State.memWrite_dbg (a v : Byte) : (s.memWrite a v).dbg = s.dbg := rfl
@[simp] theorem State.memWrite_reg (a v : Byte) (q : Reg) : (s.memWrite a v).reg q = s.reg q := rfl

/-! ## `State.jump` -/

@[simp] theorem State.jump_config (a : IAddr) : (s.jump a).config = s.config := rfl
@[simp] theorem State.jump_regs (a : IAddr) : (s.jump a).regs = s.regs := rfl
@[simp] theorem State.jump_pc (a : IAddr) : (s.jump a).pc = a.setWidth 11 := rfl
@[simp] theorem State.jump_z (a : IAddr) : (s.jump a).z = s.z := rfl
@[simp] theorem State.jump_c (a : IAddr) : (s.jump a).c = s.c := rfl
@[simp] theorem State.jump_stack (a : IAddr) : (s.jump a).stack = s.stack := rfl
@[simp] theorem State.jump_halted (a : IAddr) : (s.jump a).halted = s.halted := rfl
@[simp] theorem State.jump_dmem (a : IAddr) : (s.jump a).dmem = s.dmem := rfl
@[simp] theorem State.jump_status (a : IAddr) : (s.jump a).status = s.status := rfl
@[simp] theorem State.jump_errPc (a : IAddr) : (s.jump a).errPc = s.errPc := rfl
@[simp] theorem State.jump_imem (a : IAddr) : (s.jump a).imem = s.imem := rfl
@[simp] theorem State.jump_imageLen (a : IAddr) : (s.jump a).imageLen = s.imageLen := rfl
@[simp] theorem State.jump_dbg (a : IAddr) : (s.jump a).dbg = s.dbg := rfl
@[simp] theorem State.jump_reg (a : IAddr) (q : Reg) : (s.jump a).reg q = s.reg q := rfl
@[simp] theorem State.jump_memRead (a : IAddr) (x : Byte) : (s.jump a).memRead x = s.memRead x := rfl

/-! ## `State.advance` -/

@[simp] theorem State.advance_config : (s.advance).config = s.config := rfl
@[simp] theorem State.advance_regs : (s.advance).regs = s.regs := rfl
@[simp] theorem State.advance_pc : (s.advance).pc = s.pc + 1 := rfl
@[simp] theorem State.advance_z : (s.advance).z = s.z := rfl
@[simp] theorem State.advance_c : (s.advance).c = s.c := rfl
@[simp] theorem State.advance_stack : (s.advance).stack = s.stack := rfl
@[simp] theorem State.advance_halted : (s.advance).halted = s.halted := rfl
@[simp] theorem State.advance_dmem : (s.advance).dmem = s.dmem := rfl
@[simp] theorem State.advance_status : (s.advance).status = s.status := rfl
@[simp] theorem State.advance_errPc : (s.advance).errPc = s.errPc := rfl
@[simp] theorem State.advance_imem : (s.advance).imem = s.imem := rfl
@[simp] theorem State.advance_imageLen : (s.advance).imageLen = s.imageLen := rfl
@[simp] theorem State.advance_dbg : (s.advance).dbg = s.dbg := rfl
@[simp] theorem State.advance_reg (q : Reg) : (s.advance).reg q = s.reg q := rfl
@[simp] theorem State.advance_memRead (x : Byte) : (s.advance).memRead x = s.memRead x := rfl

/-! ## `State.latch` -/

@[simp] theorem State.latch_config (st : Status) : (s.latch st).config = s.config := rfl
@[simp] theorem State.latch_regs (st : Status) : (s.latch st).regs = s.regs := rfl
@[simp] theorem State.latch_pc (st : Status) : (s.latch st).pc = s.pc := rfl
@[simp] theorem State.latch_z (st : Status) : (s.latch st).z = s.z := rfl
@[simp] theorem State.latch_c (st : Status) : (s.latch st).c = s.c := rfl
@[simp] theorem State.latch_stack (st : Status) : (s.latch st).stack = s.stack := rfl
@[simp] theorem State.latch_halted (st : Status) : (s.latch st).halted = s.halted := rfl
@[simp] theorem State.latch_dmem (st : Status) : (s.latch st).dmem = s.dmem := rfl
@[simp] theorem State.latch_status (st : Status) : (s.latch st).status = st := rfl
@[simp] theorem State.latch_errPc (st : Status) : (s.latch st).errPc = 0 := rfl
@[simp] theorem State.latch_imem (st : Status) : (s.latch st).imem = s.imem := rfl
@[simp] theorem State.latch_imageLen (st : Status) : (s.latch st).imageLen = s.imageLen := rfl
@[simp] theorem State.latch_dbg (st : Status) : (s.latch st).dbg = s.dbg := rfl
@[simp] theorem State.latch_reg (st : Status) (q : Reg) : (s.latch st).reg q = s.reg q := rfl
@[simp] theorem State.latch_memRead (st : Status) (x : Byte) : (s.latch st).memRead x = s.memRead x := rfl

/-! ## `State.raise` -/

@[simp] theorem State.raise_config (e : StepError) : (s.raise e).config = s.config := rfl
@[simp] theorem State.raise_regs (e : StepError) : (s.raise e).regs = s.regs := rfl
@[simp] theorem State.raise_pc (e : StepError) : (s.raise e).pc = s.pc := rfl
@[simp] theorem State.raise_z (e : StepError) : (s.raise e).z = s.z := rfl
@[simp] theorem State.raise_c (e : StepError) : (s.raise e).c = s.c := rfl
@[simp] theorem State.raise_stack (e : StepError) : (s.raise e).stack = s.stack := rfl
@[simp] theorem State.raise_halted (e : StepError) : (s.raise e).halted = s.halted := rfl
@[simp] theorem State.raise_dmem (e : StepError) : (s.raise e).dmem = s.dmem := rfl
@[simp] theorem State.raise_status (e : StepError) : (s.raise e).status = .error e := rfl
@[simp] theorem State.raise_errPc (e : StepError) : (s.raise e).errPc = s.pc := rfl
@[simp] theorem State.raise_imem (e : StepError) : (s.raise e).imem = s.imem := rfl
@[simp] theorem State.raise_imageLen (e : StepError) : (s.raise e).imageLen = s.imageLen := rfl
@[simp] theorem State.raise_dbg (e : StepError) : (s.raise e).dbg = s.dbg := rfl
@[simp] theorem State.raise_reg (e : StepError) (q : Reg) : (s.raise e).reg q = s.reg q := rfl
@[simp] theorem State.raise_memRead (e : StepError) (x : Byte) : (s.raise e).memRead x = s.memRead x := rfl

/-! ## `State.resetBlock` -/

@[simp] theorem State.resetBlock_config : (s.resetBlock).config = s.config := rfl
@[simp] theorem State.resetBlock_regs : (s.resetBlock).regs = State.reset.regs := rfl
@[simp] theorem State.resetBlock_pc : (s.resetBlock).pc = 0 := rfl
@[simp] theorem State.resetBlock_z : (s.resetBlock).z = false := rfl
@[simp] theorem State.resetBlock_c : (s.resetBlock).c = false := rfl
@[simp] theorem State.resetBlock_stack : (s.resetBlock).stack = [] := rfl
@[simp] theorem State.resetBlock_halted : (s.resetBlock).halted = false := rfl
@[simp] theorem State.resetBlock_dmem : (s.resetBlock).dmem = [] := rfl
@[simp] theorem State.resetBlock_status : (s.resetBlock).status = .reset := rfl
@[simp] theorem State.resetBlock_errPc : (s.resetBlock).errPc = 0 := rfl
@[simp] theorem State.resetBlock_imem : (s.resetBlock).imem = s.imem := rfl
@[simp] theorem State.resetBlock_imageLen : (s.resetBlock).imageLen = s.imageLen := rfl
@[simp] theorem State.resetBlock_dbg : (s.resetBlock).dbg = s.dbg := rfl

/-! ## `State.placeWord` -/

@[simp] theorem State.placeWord_config (w : Word) : (s.placeWord w).config = s.config := rfl
@[simp] theorem State.placeWord_regs (w : Word) : (s.placeWord w).regs = s.regs := rfl
@[simp] theorem State.placeWord_pc (w : Word) : (s.placeWord w).pc = BitVec.ofNat 11 s.fetchAddress := rfl
@[simp] theorem State.placeWord_z (w : Word) : (s.placeWord w).z = s.z := rfl
@[simp] theorem State.placeWord_c (w : Word) : (s.placeWord w).c = s.c := rfl
@[simp] theorem State.placeWord_stack (w : Word) : (s.placeWord w).stack = s.stack := rfl
@[simp] theorem State.placeWord_halted (w : Word) : (s.placeWord w).halted = false := rfl
@[simp] theorem State.placeWord_dmem (w : Word) : (s.placeWord w).dmem = s.dmem := rfl
@[simp] theorem State.placeWord_status (w : Word) : (s.placeWord w).status = s.status := rfl
@[simp] theorem State.placeWord_errPc (w : Word) : (s.placeWord w).errPc = s.errPc := rfl
@[simp] theorem State.placeWord_imem (w : Word) : (s.placeWord w).imem = Store.set (0 : Word) s.imem s.fetchAddress w := rfl
@[simp] theorem State.placeWord_imageLen (w : Word) : (s.placeWord w).imageLen = Fin.ofNat 1025 (max s.imageLen.val (s.fetchAddress + 1)) := rfl
@[simp] theorem State.placeWord_dbg (w : Word) : (s.placeWord w).dbg = s.dbg := rfl
@[simp] theorem State.placeWord_reg (w : Word) (q : Reg) : (s.placeWord w).reg q = s.reg q := rfl
@[simp] theorem State.placeWord_memRead (w : Word) (x : Byte) : (s.placeWord w).memRead x = s.memRead x := rfl

/-! ## Reset and the status classes -/

@[simp] theorem State.reset_status : State.reset.status = .reset := rfl
@[simp] theorem State.reset_pc : State.reset.pc = 0 := rfl
@[simp] theorem State.reset_halted : State.reset.halted = false := rfl
@[simp] theorem State.reset_stack : State.reset.stack = [] := rfl
@[simp] theorem State.reset_dmem : State.reset.dmem = [] := rfl
@[simp] theorem State.reset_config : State.reset.config = Config.standard := rfl
@[simp] theorem Status.isError_ok : Status.isError .ok = false := rfl
@[simp] theorem Status.isError_halted : Status.isError .halted = false := rfl
@[simp] theorem Status.isError_reset : Status.isError .reset = false := rfl
@[simp] theorem Status.isError_error (e : StepError) : Status.isError (.error e) = true := rfl

end Sys2Proof.Machine
end

