-- ==== Sys2Proof/Laws/Store.lean ====
section
/-! SUPPORT. The laws of the sparse array (Machine/Store.lean): reading after a write, and the canonical form kept by
every operation; then the same for the data memory, IMEM and DBG. -/

namespace Sys2Proof.Machine

variable {α : Type}

/-! ## Reading after an operation -/

@[simp] theorem Store.get_nil (d : α) (a : Nat) : Store.get d [] a = d := rfl

theorem Store.get_erase_same (d : α) (m : Store α) (a : Nat) : Store.get d (m.erase a) a = d := by
  induction m with
  | nil => rfl
  | cons e m ih =>
    obtain ⟨k, v⟩ := e
    by_cases h : k = a
    · simpa [Store.erase, List.filter_cons, h] using ih
    · simpa [Store.erase, List.filter_cons, h, Store.get] using ih

theorem Store.get_erase_other (d : α) (m : Store α) {a b : Nat} (hb : b ≠ a) :
    Store.get d (m.erase a) b = Store.get d m b := by
  induction m with
  | nil => rfl
  | cons e m ih =>
    obtain ⟨k, v⟩ := e
    by_cases h : k = a
    · subst h
      simpa [Store.erase, List.filter_cons, Store.get, Ne.symm hb] using ih
    · by_cases hk : k = b <;> simp_all [Store.erase, Store.get]

theorem Store.get_place_same (d : α) (m : Store α) (a : Nat) (v : α) (h : Store.get d m a = d)
    (hm : ∀ e ∈ m, e.1 ≠ a) : Store.get d (Store.place a v m) a = v := by
  induction m with
  | nil => simp [Store.place, Store.get]
  | cons e m ih =>
    obtain ⟨k, w⟩ := e
    have hk : k ≠ a := hm (k, w) (by simp)
    by_cases hlt : a < k
    · simp [Store.place, hlt, Store.get]
    · have := ih (by simpa [Store.get, hk] using h) (fun e he => hm e (by simp [he]))
      simpa [Store.place, hlt, Store.get, hk] using this

theorem Store.get_place_other (d : α) (m : Store α) {a b : Nat} (v : α) (hb : b ≠ a) :
    Store.get d (Store.place a v m) b = Store.get d m b := by
  induction m with
  | nil => simp [Store.place, Store.get, Ne.symm hb]
  | cons e m ih =>
    obtain ⟨k, w⟩ := e
    by_cases hlt : a < k
    · simp [Store.place, hlt, Store.get, Ne.symm hb]
    · rw [Store.place, if_neg hlt, Store.get, Store.get, ih]

theorem Store.erase_keys (m : Store α) (a : Nat) : ∀ e ∈ m.erase a, e.1 ≠ a := by
  intro e he
  simpa using (List.mem_filter.mp he).2

/-- A write is read back at its own address. -/
theorem Store.get_set_same [DecidableEq α] (d : α) (m : Store α) (a : Nat) (v : α) :
    Store.get d (Store.set d m a v) a = v := by
  by_cases h : v = d
  · simp [Store.set, h, Store.get_erase_same]
  · rw [Store.set, if_neg h]
    exact Store.get_place_same d _ a v (Store.get_erase_same d m a) (Store.erase_keys m a)

/-- A write leaves every other address alone. -/
theorem Store.get_set_other [DecidableEq α] (d : α) (m : Store α) {a b : Nat} (v : α) (hb : b ≠ a) :
    Store.get d (Store.set d m a v) b = Store.get d m b := by
  by_cases h : v = d <;> simp [Store.set, h, Store.get_erase_other, Store.get_place_other, hb]

/-- What every address reads after a write. -/
theorem Store.get_set [DecidableEq α] (d : α) (m : Store α) (a b : Nat) (v : α) :
    Store.get d (Store.set d m a v) b = if b = a then v else Store.get d m b := by
  by_cases h : b = a
  · simp [h, Store.get_set_same]
  · simp [h, Store.get_set_other]

/-! ## The canonical form -/

/-- The canonical form, as three facts. -/
theorem Store.wf_iff [DecidableEq α] (d : α) (bound : Nat) (m : Store α) :
    Store.wf d bound m = true ↔
      m.Pairwise (fun e f => e.1 < f.1) ∧ (∀ e ∈ m, e.1 < bound) ∧ ∀ e ∈ m, e.2 ≠ d := by
  simp [Store.wf, List.all_eq_true, forall_and]

theorem Store.mem_place {m : Store α} {a : Nat} {v : α} {e : Nat × α} (h : e ∈ Store.place a v m) :
    e = (a, v) ∨ e ∈ m := by
  induction m with
  | nil => simpa [Store.place] using h
  | cons f m ih =>
    obtain ⟨k, w⟩ := f
    by_cases hlt : a < k
    · simpa [Store.place, hlt] using h
    · simp only [Store.place, hlt, if_false, List.mem_cons] at h
      rcases h with h | h
      · simp [h]
      · rcases ih h with h | h <;> simp [h]

theorem Store.pairwise_place {m : Store α} {a : Nat} {v : α} (hm : m.Pairwise fun e f => e.1 < f.1)
    (ha : ∀ e ∈ m, e.1 ≠ a) : (Store.place a v m).Pairwise fun e f => e.1 < f.1 := by
  induction m with
  | nil => simp [Store.place]
  | cons e m ih =>
    obtain ⟨k, w⟩ := e
    have hk : k ≠ a := ha (k, w) (by simp)
    rw [List.pairwise_cons] at hm
    by_cases hlt : a < k
    · simp only [Store.place, hlt, if_true, List.pairwise_cons, List.mem_cons]
      refine ⟨?_, hm⟩
      rintro f (rfl | hf)
      · exact hlt
      · exact hlt.trans (hm.1 f hf)
    · simp only [Store.place, hlt, if_false, List.pairwise_cons]
      refine ⟨fun f hf => ?_, ih hm.2 fun f hf => ha f (by simp [hf])⟩
      rcases Store.mem_place hf with rfl | hf
      · simp; omega
      · exact hm.1 f hf

/-- Every write keeps the canonical form. -/
theorem Store.set_wf [DecidableEq α] {d : α} {bound : Nat} {m : Store α} {a : Nat} {v : α}
    (hm : Store.wf d bound m = true) (ha : a < bound) : Store.wf d bound (Store.set d m a v) = true := by
  rw [Store.wf_iff] at hm ⊢
  obtain ⟨hp, hb, hd⟩ := hm
  have hpe : (m.erase a).Pairwise fun e f => e.1 < f.1 := hp.filter _
  have hsub : ∀ e ∈ m.erase a, e ∈ m := fun e he => (List.mem_filter.mp he).1
  by_cases h : v = d
  · simp only [Store.set, h, if_true]
    exact ⟨hpe, fun e he => hb e (hsub e he), fun e he => hd e (hsub e he)⟩
  · simp only [Store.set, h, if_false]
    refine ⟨Store.pairwise_place hpe (Store.erase_keys m a), fun e he => ?_, fun e he => ?_⟩
    · rcases Store.mem_place he with rfl | he
      · exact ha
      · exact hb e (hsub e he)
    · rcases Store.mem_place he with rfl | he
      · exact h
      · exact hd e (hsub e he)

/-- The empty array is canonical. -/
theorem Store.wf_nil [DecidableEq α] (d : α) (bound : Nat) : Store.wf d bound ([] : Store α) = true := rfl

/-! ## The data memory -/

/-- What every byte reads after a store. -/
theorem Memory.read_write (m : Memory) (a b v : Byte) :
    Memory.read (Memory.write m a v) b = if b = a then v else Memory.read m b := by
  simp [Memory.read, Memory.write, Store.get_set, BitVec.toNat_inj]

/-- A store keeps the canonical form of the data memory. -/
theorem Memory.write_wf {m : Memory} (a v : Byte) (hm : Memory.wf m = true) : Memory.wf (Memory.write m a v) = true :=
  Store.set_wf hm a.isLt

/-- The data memory after reset is canonical. -/
theorem Memory.reset_wf : Memory.wf State.reset.dmem = true := rfl

/-- What every byte reads after a store to the state. -/
@[simp] theorem State.memRead_memWrite (s : State) (a b v : Byte) :
    (s.memWrite a v).memRead b = if b = a then v else s.memRead b :=
  Memory.read_write s.dmem a b v

/-! ## IMEM and DBG as a load fills them -/

theorem fillWords_wf {m : ImageRom} (ws : List Word) {k : Nat} (hm : Store.wf (0 : Word) imageMax m = true)
    (hk : k + ws.length ≤ imageMax) : Store.wf (0 : Word) imageMax (fillWords m k ws) = true := by
  induction ws generalizing m k with
  | nil => exact hm
  | cons w ws ih =>
    simp only [List.length_cons] at hk
    exact ih (Store.set_wf hm (by omega)) (by omega)

theorem fillLines_wf {m : DebugRom} (es : List LineEntry) (hm : Store.wf (none : Option Nat) imageMax m = true)
    (he : ∀ e ∈ es, e.address < imageMax) : Store.wf (none : Option Nat) imageMax (fillLines m es) = true := by
  induction es generalizing m with
  | nil => exact hm
  | cons e es ih =>
    exact ih (Store.set_wf hm (he e (by simp))) fun f hf => he f (by simp [hf])

/-- A load's words stand in order from its first address; every other address keeps its word. -/
theorem get_fillWords (m : ImageRom) (ws : List Word) (k a : Nat) :
    Store.get (0 : Word) (fillWords m k ws) a =
      if k ≤ a ∧ a < k + ws.length then ws.getD (a - k) 0 else Store.get (0 : Word) m a := by
  induction ws generalizing m k with
  | nil =>
    rw [fillWords, if_neg]
    simp
  | cons w ws ih =>
    rw [fillWords, ih, Store.get_set]
    rcases Nat.lt_trichotomy a k with h | rfl | h
    · simp [show ¬ k + 1 ≤ a by omega, show ¬ k ≤ a by omega, show a ≠ k by omega]
    · simp
    · obtain ⟨j, rfl⟩ : ∃ j, a = k + 1 + j := ⟨a - (k + 1), by omega⟩
      have e1 : k + 1 + j - k = j + 1 := by omega
      have e2 : k + 1 + j - (k + 1) = j := by omega
      have e3 : k + 1 + j ≠ k := by omega
      have e4 : k ≤ k + 1 + j := by omega
      have e5 : k + 1 + j < k + (ws.length + 1) ↔ j < ws.length := by omega
      simp [e1, e2, e3, e4, e5]

/-- An address that no entry of a debug map names keeps its answer. -/
theorem get_fillLines_other (m : DebugRom) (es : List LineEntry) (a : Nat) (h : a ∉ es.map LineEntry.address) :
    Store.get (none : Option Nat) (fillLines m es) a = Store.get (none : Option Nat) m a := by
  induction es generalizing m with
  | nil => rfl
  | cons e es ih =>
    simp only [List.map_cons, List.mem_cons, not_or] at h
    rw [fillLines, ih _ h.2, Store.get_set_other _ _ _ h.1]

end Sys2Proof.Machine
end

