-- ==== Sys2Proof/Laws/Ops.lean ====
section
/-! SUPPORT. One lemma for each shared operation that says once what it does: registers, the stack unit, ending a step,
the write-back, the address unit, the flag logic, the load and the instructions that can raise an error. -/

namespace Sys2Proof.Machine

/-! ## Registers -/

/-- r0 reads 0x00 in every state. -/
@[simp] theorem State.reg_r0 (s : State) : s.reg .r0 = 0 := rfl

/-- What every register reads after a register write. -/
theorem RegFile.read_write (f : RegFile) (r q : Reg) (v : Byte) :
    (f.write r v).read q = if q = r ∧ r ≠ .r0 then v else f.read q := by
  cases r <;> cases q <;> simp [RegFile.read, RegFile.write]

/-- What every register reads after `x[r] <- v`. -/
@[simp] theorem State.reg_setReg (s : State) (r q : Reg) (v : Byte) :
    (s.setReg r v).reg q = if q = r ∧ r ≠ .r0 then v else s.reg q :=
  RegFile.read_write s.regs r q v

/-- A write to r0 changes nothing. -/
@[simp] theorem State.setReg_r0 (s : State) (v : Byte) : s.setReg .r0 v = s := rfl

/-- Two register files that read alike are equal. -/
theorem RegFile.ext_read {f g : RegFile} (h : ∀ r, f.read r = g.read r) : f = g := by
  have h1 := h .r1; have h2 := h .r2; have h3 := h .r3; have h4 := h .r4
  have h5 := h .r5; have h6 := h .r6; have h7 := h .r7
  cases f; cases g; simp_all [RegFile.read]

/-! ## Stack unit -/

/-- When a stack is full. -/
theorem stackFull_iff (depth : Option Nat) (d : Nat) : stackFull depth d = true ↔ ∃ n, depth = some n ∧ n ≤ d := by
  cases depth <;> simp [stackFull]

/-- A push: refused on a full stack, else the value becomes the top. -/
theorem stackUnit_push (depth : Option Nat) (stk : List IAddr) (v : IAddr) :
    stackUnit depth stk (.push v) =
      if stackFull depth stk.length then (stk, .overflow) else (v :: stk, .pushed) := rfl

@[simp] theorem stackUnit_pop_nil (depth : Option Nat) : stackUnit depth [] .pop = ([], .underflow) := rfl

@[simp] theorem stackUnit_pop_cons (depth : Option Nat) (v : IAddr) (stk : List IAddr) :
    stackUnit depth (v :: stk) .pop = (stk, .popped v) := rfl

/-- A move of the stack unit keeps the depth within the capacity. -/
theorem stackUnit_bounded (n : Nat) (stk : List IAddr) (cmd : StackCommand) (h : stk.length ≤ n) :
    (stackUnit (some n) stk cmd).1.length ≤ n := by
  cases cmd with
  | none => exact h
  | push v =>
    by_cases hf : n ≤ stk.length
    · simpa [stackUnit, stackFull, hf] using h
    · simp [stackUnit, stackFull, hf]; omega
  | pop =>
    cases stk with
    | nil => simp [stackUnit]
    | cons v rest => simp [stackUnit] at h ⊢; omega

/-! ## Ending a step -/

/-- What a completing step answers. -/
theorem complete_next {s t : State} : complete s = .next t ↔ t = s.latch .ok := by
  simp [complete, eq_comm]

/-- What a step that raises an error answers. -/
theorem raiseError_next {e : StepError} {s t : State} : raiseError e s = .next t ↔ t = s.raise e := by
  simp [raiseError, eq_comm]

/-! ## Write-back -/

@[simp] theorem State.applyFlags_none (s : State) : s.applyFlags none = s := rfl

@[simp] theorem State.applyFlags_some (s : State) (z c : Bool) : s.applyFlags (some (z, c)) = s.setFlags z c := rfl

@[simp] theorem plain_value (v : Byte) : (plain v).value = v := rfl
@[simp] theorem plain_flags (v : Byte) : (plain v).flags = none := rfl
@[simp] theorem arithmetic_value (raw : Int) : (arithmetic raw).value = trunc8 raw := rfl
@[simp] theorem arithmetic_flags (raw : Int) :
    (arithmetic raw).flags = some (zeroFlag raw, carryFlag raw) := rfl
@[simp] theorem bitwise_value (p : BitwiseCarry) (sel : AluSel) (x y : Byte) :
    (bitwise p sel x y).value = selectVec sel x y := rfl
@[simp] theorem bitwise_flags (p : BitwiseCarry) (sel : AluSel) (x y : Byte) :
    (bitwise p sel x y).flags =
      some (decide (selectVec sel x y = 0), bitCarry p sel (selectVec sel x y)) := rfl

/-- A write-back without flags. -/
theorem writeBack_plain (ra : Reg) (v : Byte) (s : State) :
    writeBack ra (plain v) s = .next ((s.setReg ra v).advance.latch .ok) := rfl

/-- A write-back with a flag pair. -/
theorem writeBack_flags (ra : Reg) (v : Byte) (z c : Bool) (s : State) :
    writeBack ra ⟨v, some (z, c)⟩ s = .next (((s.setReg ra v).setFlags z c).advance.latch .ok) := rfl

/-- What every write-back leaves alone and what it gives, once for all its callers. -/
theorem writeBack_next {ra : Reg} {w : WriteBack} {s t : State} (h : writeBack ra w s = .next t) :
    t.regs = s.regs.write ra w.value ∧ t.pc = s.pc + 1 ∧
      (t.z, t.c) = w.flags.getD (s.z, s.c) ∧ t.status = .ok ∧ t.errPc = 0 ∧ t.halted = s.halted ∧
      t.stack = s.stack ∧ t.dmem = s.dmem ∧ t.config = s.config ∧ t.imem = s.imem ∧
      t.imageLen = s.imageLen ∧ t.dbg = s.dbg := by
  obtain ⟨v, f⟩ := w
  rw [writeBack, complete_next] at h
  subst h
  rcases f with _ | ⟨z, c⟩ <;> simp

/-! ## Integer readings and the address unit -/

theorem s8_bounds (v : Byte) : -128 ≤ s8 v ∧ s8 v ≤ 127 := by
  have h1 := BitVec.le_toInt v
  have h2 := BitVec.toInt_lt (x := v)
  simp [s8] at *; omega

theorem u8_lt (v : Byte) : u8 v < 256 := v.isLt

theorem s6_bounds (o : Off) : -32 ≤ s6 o ∧ s6 o ≤ 31 := by
  have h1 := BitVec.le_toInt o
  have h2 := BitVec.toInt_lt (x := o)
  simp [s6] at *; omega

/-- `trunc8` keeps the integer's residue modulo 256. -/
theorem trunc8_toNat (n : Int) : ((trunc8 n).toNat : Int) = n % 256 := by
  simp [trunc8]; omega

/-- Two integers truncate alike exactly when they agree modulo 256. -/
theorem trunc8_eq_iff (m n : Int) : trunc8 m = trunc8 n ↔ m % 256 = n % 256 := by
  rw [← trunc8_toNat, ← trunc8_toNat, Nat.cast_inj, BitVec.toNat_inj]

theorem trunc8_zero : trunc8 0 = 0 := rfl

@[simp] theorem effectiveAddress_wrap (b : Byte) (o : Off) :
    effectiveAddress .wrap b o = some (trunc8 (rawEa b o)) := rfl

/-- Under the fault policy an address answers exactly when the raw address is in range. -/
theorem effectiveAddress_fault (b : Byte) (o : Off) :
    effectiveAddress .fault b o = if 0 ≤ rawEa b o ∧ rawEa b o ≤ 255 then some (trunc8 (rawEa b o)) else none := by
  simp [effectiveAddress, eaInRange]

/-- Wherever an address answers, it is the raw address modulo 256. -/
theorem effectiveAddress_eq {p : EaPolicy} {b : Byte} {o : Off} {a : Byte} (h : effectiveAddress p b o = some a) :
    a = trunc8 (rawEa b o) := by
  cases p
  · simpa using h.symm
  · rw [effectiveAddress_fault] at h
    split at h <;> simp_all

/-! ## Loading -/

/-- When an image fits. -/
theorem Image.fits_iff (c : Config) (img : Image) :
    img.fits c = true ↔ img.words.length ≤ 1024 ∧ ∀ e ∈ img.lines, e.address < 1024 ∧ e.line < 2 ^ c.lineWidth := by
  simp [Image.fits, imageMax]

/-- Everything a load that is taken does. -/
theorem State.load_some {s t : State} {img : Image} :
    s.load img = some t ↔ img.fits s.config = true ∧
      t = { State.reset with
        config := s.config
        imem := fillWords [] 0 img.words
        imageLen := Fin.ofNat 1025 img.words.length
        dbg := fillLines [] img.lines } := by
  by_cases h : img.fits s.config = true <;> simp [State.load, State.resetBlock, h, eq_comm]

/-! ## The instructions with an error of their own -/

theorem execCal_eq (a : IAddr) (s : State) :
    execCal a s =
      if stackFull s.config.stackDepth s.stack.length then raiseError .stackOverflow s
      else complete ({ s with stack := s.ownAddress :: s.stack }.jump a) := by
  rw [execCal, stackUnit_push]
  split <;> simp_all <;> split at * <;> simp_all

theorem execRet_nil {s : State} (h : s.stack = []) : execRet s = raiseError .stackUnderflow s := by
  simp [execRet, h]

theorem execRet_cons {s : State} {v : IAddr} {rest : List IAddr} (h : s.stack = v :: rest) :
    execRet s = complete ({ s with stack := rest }.jump v).advance := by
  simp [execRet, h]

theorem execMld_some {ra rb : Reg} {off : Off} {s : State} {a : Byte} (h : s.address rb off = some a) :
    execMld ra rb off s = writeBack ra (plain (s.memRead a)) s := by
  simp [execMld, h]

theorem execMld_none {ra rb : Reg} {off : Off} {s : State} (h : s.address rb off = none) :
    execMld ra rb off s = raiseError .memOutOfRange s := by
  simp [execMld, h]

theorem execMst_some {ra rb : Reg} {off : Off} {s : State} {a : Byte} (h : s.address rb off = some a) :
    execMst ra rb off s = complete (s.memWrite a (s.reg ra)).advance := by
  simp [execMst, h]

theorem execMst_none {ra rb : Reg} {off : Off} {s : State} (h : s.address rb off = none) :
    execMst ra rb off s = raiseError .memOutOfRange s := by
  simp [execMst, h]

end Sys2Proof.Machine
end

