-- ==== Sys2Proof/Laws/PerInstr.lean ====
section
/-! SUPPORT. A fact about every instruction as syntax, one lemma per constructor of `Instr`. -/

namespace Sys2Proof.Laws.OpcodeField

/-- The top four bits of an instruction's word are its form's number in the opcode map (R71, R80). -/
def Statement (i : Instr) : Prop :=
  fieldAt 12 4 (encodeWord i) = i.form.opcodeIn standardOpcodeMap

/-- Operand fields that lie below bit 12 leave the opcode field as the opcode alone sets it. -/
theorem of_operands {i : Instr} {x : Word} (h : encodeWord i = placeField 12 (i.form.opcodeIn standardOpcodeMap) ||| x)
    (hx : fieldAt 12 4 x = 0) : Statement i := by
  rw [Statement, h, fieldAt_or, hx, fieldAt_placeField_same _ (by omega), show (0 : BitVec 4) = 0#4 from rfl, BitVec.or_zero]

theorem nop : Statement .nop := of_operands rfl (fieldAt_zero 12 4)
theorem hlt : Statement .hlt := of_operands rfl (fieldAt_zero 12 4)
theorem jmp (a : IAddr) : Statement (.jmp a) :=
  of_operands rfl (opcode_placeField _ (by decide))
theorem brh (c : Cond) (a : IAddr) : Statement (.brh c a) :=
  of_operands rfl (opcode_or (opcode_placeField _ (by decide)) (opcode_placeField _ (by decide)))
theorem cal (a : IAddr) : Statement (.cal a) :=
  of_operands rfl (opcode_placeField _ (by decide))
theorem ret : Statement .ret := of_operands rfl (fieldAt_zero 12 4)
theorem pld (r : Reg) (p : Byte) : Statement (.pld r p) :=
  of_operands rfl (opcode_or (opcode_placeField _ (by decide)) (opcode_placeField _ (by decide)))
theorem pst (r : Reg) (p : Byte) : Statement (.pst r p) :=
  of_operands rfl (opcode_or (opcode_placeField _ (by decide)) (opcode_placeField _ (by decide)))
theorem mld (ra rb : Reg) (o : Off) : Statement (.mld ra rb o) :=
  of_operands rfl (opcode_or (opcode_or (opcode_placeField _ (by decide)) (opcode_placeField _ (by decide))) (opcode_placeField _ (by decide)))
theorem mst (ra rb : Reg) (o : Off) : Statement (.mst ra rb o) :=
  of_operands rfl (opcode_or (opcode_or (opcode_placeField _ (by decide)) (opcode_placeField _ (by decide))) (opcode_placeField _ (by decide)))
theorem ldi (r : Reg) (v : Byte) : Statement (.ldi r v) :=
  of_operands rfl (opcode_or (opcode_placeField _ (by decide)) (opcode_placeField _ (by decide)))
theorem adi (r : Reg) (v : Byte) : Statement (.adi r v) :=
  of_operands rfl (opcode_or (opcode_placeField _ (by decide)) (opcode_placeField _ (by decide)))
theorem add (ra rb rc : Reg) : Statement (.add ra rb rc) :=
  of_operands rfl (opcode_or (opcode_or (opcode_placeField _ (by decide)) (opcode_placeField _ (by decide))) (opcode_placeField _ (by decide)))
theorem sub (ra rb rc : Reg) : Statement (.sub ra rb rc) :=
  of_operands rfl (opcode_or (opcode_or (opcode_placeField _ (by decide)) (opcode_placeField _ (by decide))) (opcode_placeField _ (by decide)))
theorem bit (ra rb : Reg) (sel : AluSel) (rc : Reg) : Statement (.bit ra rb sel rc) :=
  of_operands rfl (opcode_or (opcode_or (opcode_or (opcode_placeField _ (by decide)) (opcode_placeField _ (by decide))) (opcode_placeField _ (by decide))) (opcode_placeField _ (by decide)))
theorem rsh (ra rb : Reg) : Statement (.rsh ra rb) :=
  of_operands rfl (opcode_or (opcode_placeField _ (by decide)) (opcode_placeField _ (by decide)))

end Sys2Proof.Laws.OpcodeField
end

