-- ==== Sys2Proof/Laws/Step.lean ====
section
/-! SUPPORT. The inversion lemma of the step: everything one step can do, said once, in the order of its checks. -/

namespace Sys2Proof.Machine

theorem step_halted {s : State} (h : s.halted = true) : step s = raiseError .stepWhileHalted s := by
  simp [step, cycle, h]

theorem fetch_none {s : State} (h : s.imageLen.val ≤ s.pc.toNat) : s.fetch = none := by
  simp [State.fetch]; omega

theorem fetch_some {s : State} (h : s.pc.toNat < s.imageLen.val) :
    s.fetch = some (ImageRom.word s.imem s.pc.toNat) := by
  simp [State.fetch, h]

/-- What a step answers, by the first check that applies. -/
theorem step_eq (s : State) :
    step s =
      if s.halted = true then raiseError .stepWhileHalted s
      else if s.imageLen.val ≤ s.pc.toNat then raiseError .fetchOutOfImage s
      else
        match s.decode (ImageRom.word s.imem s.pc.toNat) with
        | .error _ => raiseError .unknownOpcode s
        | .ok i => exec i s := by
  by_cases hh : s.halted = true
  · simp [step_halted hh, hh]
  · by_cases hp : s.imageLen.val ≤ s.pc.toNat
    · simp [step, cycle, hh, hp, fetch_none hp]
    · have hf := fetch_some (s := s) (by omega)
      cases hd : s.decode (ImageRom.word s.imem s.pc.toNat) <;> simp [step, cycle, hh, hp, hf, hd]

/-- Everything a step that answers a next state can be. -/
theorem step_cases {s t : State} (h : step s = .next t) :
    (s.halted = true ∧ t = s.raise .stepWhileHalted) ∨
    (s.halted = false ∧ s.imageLen.val ≤ s.pc.toNat ∧ t = s.raise .fetchOutOfImage) ∨
    (s.halted = false ∧ s.pc.toNat < s.imageLen.val ∧
      (∃ e, s.decode (ImageRom.word s.imem s.pc.toNat) = .error e) ∧ t = s.raise .unknownOpcode) ∨
    (s.halted = false ∧ s.pc.toNat < s.imageLen.val ∧
      ∃ i, s.decode (ImageRom.word s.imem s.pc.toNat) = .ok i ∧ exec i s = .next t) := by
  rw [step_eq] at h
  split at h
  · exact .inl ⟨by assumption, raiseError_next.mp h⟩
  · split at h
    · exact .inr (.inl ⟨by simp_all, by assumption, raiseError_next.mp h⟩)
    · split at h
      · exact .inr (.inr (.inl ⟨by simp_all, by omega, ⟨_, by assumption⟩, raiseError_next.mp h⟩))
      · exact .inr (.inr (.inr ⟨by simp_all, by omega, _, by assumption, h⟩))

/-- Where the tables are the decided ones, the core's decoder is `decodeWord`. -/
theorem State.decode_standard {s : State} (h : s.config.tables = EncodingTables.standard) (w : Word) :
    s.decode w = decodeWord w := by
  rw [State.decode, h, decodeWord]

/-- A placed word lies inside IMEM. -/
theorem fetchAddress_lt (s : State) : s.fetchAddress < 1024 := by
  unfold State.fetchAddress imageMax
  split <;> omega

/-- The placed word is what the next step fetches. -/
theorem fetch_placeWord (s : State) (w : Word) : (s.placeWord w).fetch = some w := by
  have h := fetchAddress_lt s
  have hi := s.imageLen.isLt
  have hpc : (s.placeWord w).pc.toNat = s.fetchAddress := by
    simp; omega
  have hlen : (s.placeWord w).imageLen.val = max s.imageLen.val (s.fetchAddress + 1) := by
    simp [Fin.ofNat]; omega
  rw [fetch_some (by rw [hpc, hlen]; omega), hpc]
  simp [ImageRom.word, Store.get_set_same]

end Sys2Proof.Machine
end

