-- ==== Sys2Proof/Tests/Slice0.lean ====
section
/-! SUPPORT. Tests: the well-formedness checks, the decoder on words written out from R72 to R80, single steps on the
vectors of spec/95_test_vectors.md (cited as V<n> and E<n>), the assembler's vectors, and a witness for the
hypotheses of each statement. -/

open Sys2Proof Sys2Proof.Machine

namespace Sys2Proof.Tests

/-! ## Well-formedness: each check refuses an ill-formed term -/

theorem test_instr_wf : (Instr.bit .r7 .r0 .nimplies .r3).wellFormed = true := by decide
theorem test_reg_r8_refused : registerNumberOk 7 = true ∧ registerNumberOk 8 = false := by decide
theorem test_imm_bounds : immediateOk (-128) = true ∧ immediateOk 255 = true ∧ immediateOk (-129) = false ∧
    immediateOk 256 = false := by decide
theorem test_off_bounds : offsetOk (-32) = true ∧ offsetOk 31 = true ∧ offsetOk (-33) = false ∧
    offsetOk 32 = false := by decide
theorem test_addr_bounds : addressOk 0 = true ∧ addressOk 1023 = true ∧ addressOk (-1) = false ∧
    addressOk 1024 = false := by decide
theorem test_stack_depth_zero_refused : Config.standard.wf = true ∧
    Config.wf { Config.standard with stackDepth := some 0 } = false := by decide
theorem test_layout_overlap_refused : FieldLayout.wf { FieldLayout.standard with rb := 7 } = false := by decide
theorem test_layout_outside_refused : FieldLayout.wf { FieldLayout.standard with ra := 14 } = false := by decide
theorem test_layout_opcode_moved_refused : FieldLayout.wf { FieldLayout.standard with op := 0 } = false := by decide
theorem test_opcode_map_short_refused : opcodeMapOk (standardOpcodeMap.take 15) = false := by decide
theorem test_opcode_map_repeat_refused : opcodeMapOk (standardOpcodeMap.set 1 .nop) = false := by decide
theorem test_tables_refused : EncodingTables.standard.wf = true ∧
    EncodingTables.wf { EncodingTables.standard with opcodeMap := [] } = false ∧
    Config.wf { Config.standard with tables := ⟨standardOpcodeMap, { FieldLayout.standard with rb := 7 }⟩ } = false := by
  decide

/-! ## Decoding: words written out field by field from R72 to R80 -/

theorem test_decode_nop : decodeWord 0b0000_0000_0000_0000 = .ok .nop := by decide
theorem test_decode_hlt : decodeWord 0b0001_0000_0000_0000 = .ok .hlt := by decide
theorem test_decode_jmp : decodeWord 0b0010_00_1000000011 = .ok (.jmp 515) := by decide
theorem test_decode_brh : decodeWord 0b0011_10_0000000001 = .ok (.brh .ge 1) := by decide
theorem test_decode_cal : decodeWord 0b0100_00_0000010100 = .ok (.cal 20) := by decide
theorem test_decode_ret : decodeWord 0b0101_1111_1111_1111 = .ok .ret := by decide
theorem test_decode_pld : decodeWord 0b0110_001_0_00000111 = .ok (.pld .r1 7) := by decide
theorem test_decode_pst : decodeWord 0b0111_010_0_11111111 = .ok (.pst .r2 255) := by decide
theorem test_decode_mld : decodeWord 0b1000_001_010_111110 = .ok (.mld .r1 .r2 0b111110) := by decide
theorem test_decode_mst : decodeWord 0b1001_011_100_000001 = .ok (.mst .r3 .r4 1) := by decide
theorem test_decode_ldi : decodeWord 0b1010_101_1_00001001 = .ok (.ldi .r5 9) := by decide
theorem test_decode_adi : decodeWord 0b1011_110_0_11001000 = .ok (.adi .r6 200) := by decide
theorem test_decode_add : decodeWord 0b1100_011_001_111_010 = .ok (.add .r3 .r1 .r2) := by decide
theorem test_decode_sub : decodeWord 0b1101_000_001_000_010 = .ok (.sub .r0 .r1 .r2) := by decide
theorem test_decode_bit : decodeWord 0b1110_001_010_011_100 = .ok (.bit .r1 .r2 .implies .r4) := by decide
theorem test_decode_rsh : decodeWord 0b1111_111_010_101010 = .ok (.rsh .r7 .r2) := by decide
theorem test_table_word : decodeTableWord 16 0x82BE = some (.mld .r1 .r2 0x3E) := by decide
theorem test_bytes_big_endian : decodeBytes .standard [0xA2, 0x05, 0x10] = .ok (.ldi .r1 5, [0x10]) := by decide
theorem test_bytes_truncated : decodeBytes .standard [0xA2] = .error .truncated := by decide
theorem test_unknown_opcode_by_name :
    decodeWith ⟨standardOpcodeMap.take 15, FieldLayout.standard⟩ 0xF000 = .error .unknownOpcode := by decide

/-- Other legal tables (R10): the opcodes of nop and hlt exchanged, cond in bits [1:0] and addr in bits [11:2]. -/
def otherTables : EncodingTables :=
  { opcodeMap := (standardOpcodeMap.set 0 .hlt).set 1 .nop
    layout := { FieldLayout.standard with cond := 0, addr := 2 } }

/-- Words written out under the other tables, and under the decided ones. -/
theorem test_other_tables : otherTables.wf = true ∧ decodeWith otherTables 0x0000 = .ok .hlt ∧
    decodeWith otherTables 0b0011_0000000101_10 = .ok (.brh .ge 5) ∧
    encodeWith otherTables (.brh .ge 5) = 0b0011_0000000101_10 ∧ decodeWord 0x0000 = .ok .nop := by decide
theorem test_encode_bit : encodeWord (.bit .r3 .r1 .nimplies .r2) = 0xE67A := by decide

/-! ## Single steps -/

/-- The reset state with a full-length image of zero words. -/
def base : State := { State.reset with imageLen := 1024 }

/-- The state one step after `s`, with the word `w` at the pc. -/
def after (s : State) (w : Nat) : State :=
  match step (s.withFetchWord 16 w) with
  | .next t => t
  | _ => s

/-- V1. -/
theorem test_nop : (after { base with pc := 7 } 0x0000).pc = 8 := by decide
/-- R10: the step decodes by the configured tables. -/
theorem test_step_other_tables :
    (after { base with config := { Config.standard with tables := otherTables } } 0x0000).status = .halted ∧
    (after { base with config := { Config.standard with tables := otherTables } } 0x2014).pc = 5 := by decide
/-- V2. -/
theorem test_hlt : let t := after { base with pc := 3 } 0x1000
    (t.status, t.halted, t.pc) = (.halted, true, 3) := by decide
/-- V3. -/
theorem test_jmp : (after { base with pc := 4 } 0x2000).pc = 0 := by decide
/-- V12, V8. -/
theorem test_brh : (after { base with pc := 2, z := true, c := true } 0x3C09).pc = 9 ∧
    (after { base with pc := 2, z := true, c := true } 0x3409).pc = 3 := by decide
/-- V15. -/
theorem test_cal : let t := after { base with pc := 5 } 0x4014
    (t.stack, t.pc, t.status) = ([5], 20, .ok) := by decide
/-- V17. -/
theorem test_cal_full :
    let t := after { base with pc := 5, stack := [11, 9], config := { Config.standard with stackDepth := some 2 } } 0x4014
    (t.stack, t.pc, t.status, t.errPc) = ([11, 9], 5, .error .stackOverflow, 5) := by decide
/-- V19, V21. -/
theorem test_ret : let t := after { base with pc := 30, stack := [5, 9] } 0x5000
    (t.stack, t.pc) = ([9], 6) ∧ (after { base with pc := 30, stack := [1023] } 0x5000).pc = 1024 := by decide
/-- V20. -/
theorem test_ret_empty : let t := after { base with pc := 30 } 0x5000
    (t.pc, t.status, t.errPc) = (30, .error .stackUnderflow, 30) := by decide
/-- V30. -/
theorem test_pld : let t := after { base with pc := 2 } 0x6207
    (t.pc, t.status, t.errPc) = (2, .error .notImplemented, 2) := by decide
/-- V31. -/
theorem test_pst : let t := after (base.setReg .r2 0x44) 0x74FF
    (t.pc, t.status, t.reg .r2) = (0, .error .notImplemented, 0x44) := by decide
/-- V32. -/
theorem test_mld : (after ((base.setReg .r2 0x12).memWrite 0x10 0xAB) 0x82BE).reg .r1 = 0xAB := by decide
/-- V37. -/
theorem test_mld_fault :
    (after { base with config := { Config.standard with eaPolicy := .fault } } 0x823F).status =
      .error .memOutOfRange := by decide
/-- V34. -/
theorem test_mst_wraps : (after ((base.setReg .r3 0x77).setReg .r4 0xF0) 0x971F).memRead 0x0F = 0x77 := by decide
/-- V39: a stored 0x00 leaves no entry. -/
theorem test_mst_zero : (after ((base.setReg .r2 5).memWrite 5 0x42) 0x9080).dmem = [] := by decide
/-- V54. -/
theorem test_ldi : let t := after { base.setReg .r1 7 with z := true, c := true } 0xA200
    (t.reg .r1, t.z, t.c) = (0, true, true) := by decide
/-- V59. -/
theorem test_adi_signed : let t := after (base.setReg .r1 0x10) 0xB2C8
    (t.reg .r1, t.z, t.c) = (0xD8, false, true) := by decide
/-- V60. -/
theorem test_adi_r0 : let t := after base 0xB0FB
    (t.reg .r0, t.z, t.c) = (0, false, true) := by decide
/-- V64. -/
theorem test_add : let t := after ((base.setReg .r1 0x80).setReg .r2 0x80) 0xC642
    (t.reg .r3, t.z, t.c) = (0x00, true, true) := by decide
/-- V67. -/
theorem test_add_in_place : (after (base.setReg .r1 0x40) 0xC241).reg .r1 = 0x80 := by decide
/-- V72. -/
theorem test_sub : let t := after ((base.setReg .r1 0x80).setReg .r2 0x7F) 0xD642
    (t.reg .r3, t.z, t.c) = (0x01, false, true) := by decide
/-- V79, V83. -/
theorem test_bit_implies : let s := (base.setReg .r1 0xCA).setReg .r2 0x5C
    (after s 0xE65A).reg .r3 = 0x7D ∧ (after s 0xE67A).reg .r3 = 0x82 := by decide
/-- V93, V94: the two readings of the carry. -/
theorem test_bit_carry : let s := (base.setReg .r1 0xF0).setReg .r2 0x0F
    (after s 0xE662).c = false ∧
    (after { s with config := { Config.standard with bitwiseCarry := .unsigned } } 0xE662).c = true := by decide
/-- V98, V99. -/
theorem test_rsh : (after (base.setReg .r2 0xFF) 0xF280).reg .r1 = 0x7F ∧
    (after { base.setReg .r2 1 with c := true } 0xF280).c = true := by decide
/-- V122. -/
theorem test_fetch_out_of_image : (match step State.reset with | .next t => (t.status, t.errPc) | _ => (.ok, 1)) =
    (.error .fetchOutOfImage, 0) := by decide
/-- V126: the halted check comes before the fetch check. -/
theorem test_halted_first :
    (match step { State.reset with pc := 5, halted := true, imageLen := 5 } with | .next t => t.status | _ => .ok) =
    .error .stepWhileHalted := by decide
/-- R150. -/
theorem test_status_codes : [Status.ok, .halted, .error .unknownOpcode, .error .notImplemented,
    .error .stackUnderflow, .error .stackOverflow, .error .fetchOutOfImage, .error .memOutOfRange,
    .error .stepWhileHalted, .reset].map Status.code = [0, 1, 2, 3, 4, 5, 6, 7, 8, 15] := by decide

/-! ## Session -/

/-- A load of two words with a debug map, from the reset state. -/
def loaded : Option State := State.reset.load { words := [0xA205, 0x1000], lines := [⟨3, 0⟩, ⟨4, 1⟩] }

/-- R173, R161. -/
theorem test_load : loaded.map (fun t => (ImageRom.word t.imem 1, t.imageLen.val, DebugRom.lookup t.dbg 1,
    DebugRom.lookup t.dbg 2)) = some (0x1000, 2, some 4, none) := by decide
/-- D23: an odd file is refused. -/
theorem test_odd_file_refused : wordsOfFile [0x10, 0x00, 0x00] = none ∧ wordsOfFile [0x10, 0x00] = some [0x1000] := by
  decide
/-- V124. -/
theorem test_reset_clears : (after { base with pc := 3 } 0x1000).resetBlock.status = .reset ∧
    (after { base with pc := 3 } 0x1000).resetBlock.halted = false := by decide

/-! ## Assembler -/

/-- The words of a source, none where the run fails. -/
def wordsOf (src : String) : List Word := match assemble .standard "p" src with | .ok a => a.words | .error _ => []

/-- The line and kind of a failed run's error. -/
def errorOf (src : String) : Option (Nat × AsmError) :=
  match assemble .standard "p" src with | .ok _ => none | .error e => some (e.failure.line, e.failure.fault.error)

/-- E3: forward and backward references. -/
theorem test_asm_labels : wordsOf "jmp t\nt: nop" = [0x2001, 0] ∧ wordsOf "nop\nt: jmp t" = [0, 0x2001] := by decide
/-- E4. -/
theorem test_asm_pseudo : wordsOf "mov r1,r2\nnot r1,r2" = [0xC280, 0xE2A0] := by decide
/-- E11. -/
theorem test_asm_blank_lines : wordsOf "a: b:  # two\n\nc: nop\nhlt\nlast:" = [0x0000, 0x1000] := by decide
/-- V130, V154. -/
theorem test_asm_literals : wordsOf "ldi r1, 0x0b\nldi r07,-0x80" = [0xA20B, 0xAE80] := by decide
/-- V131, V132. -/
theorem test_asm_bad_literals : errorOf "ldi r1, 10x5" = some (1, .malformedOperand) ∧
    errorOf "ldi r1, 256" = some (1, .outOfRange) := by decide
/-- V142, V143, V144. -/
theorem test_asm_bad_text : errorOf "foo r1" = some (1, .unknownMnemonic) ∧
    errorOf "add r8, r1, r2" = some (1, .malformedOperand) ∧
    errorOf "add r1 r2, r3" = some (1, .missingComma) := by decide
/-- V145, V147, V148. -/
theorem test_asm_arity_and_labels : errorOf "add r1, r2" = some (1, .wrongArity) ∧
    errorOf "jmp nowhere" = some (1, .unresolvedLabel) ∧
    errorOf "x: nop\nx: hlt" = some (2, .duplicateLabel) := by decide
/-- V140, V141. -/
theorem test_asm_vocabulary : errorOf "brh gt, 0" = some (1, .unknownCondition) ∧
    errorOf "bit r1, r2, nop, r3" = some (1, .unknownOperation) := by decide

/-- E10, R104: a failed run. -/
theorem test_asm_failed_run : let r := runAssembler .standard true "p" "nop\nfoo r1"
    (r.exitStatus, r.imageFile, r.debugFile, r.printed.isSome) = (1, none, none, true) := by decide
/-- R104: `<path>:<line>: <message>`, the message naming the token. -/
theorem test_asm_printed_line : ∃ before after,
    (⟨"p", ⟨2, ⟨.malformedOperand, "r8".toList⟩⟩⟩ : AsmReport).printed "s" = "p:2: " ++ (before ++ "r8" ++ after) :=
  ⟨(Config.messageWords "p" "s").1, (Config.messageWords "p" "s").2, rfl⟩
/-- R105, R106: a run that succeeds, with and without the debug option. -/
theorem test_asm_written : let r := runAssembler .standard false "p" "ldi r1, 5\nhlt"
    (r.imageFile, r.debugFile, r.printed) = (some [0xA2, 0x05, 0x10, 0x00], none, none) ∧
    (runAssembler .standard true "p" "hlt").debugFile.map DebugMap.instructions = some [⟨1, 0⟩] := by decide

/-! ## Witnesses: states and operands that meet the hypotheses of each statement, at boundary values -/

/-- `base` with the fault policy. -/
def faulting : State := { base with config := { Config.standard with eaPolicy := .fault } }

/-- `base` with a stack of at most one entry. -/
def shallow : State := { base with config := { Config.standard with stackDepth := some 1 } }

/-- `base` with the word of an instruction at the pc. -/
def placed (i : Instr) : State := base.withFetchWord 16 (encodeWord i).toNat

theorem witness_DecodeInvertsEncode : EncodingTables.standard.wf = true ∧ otherTables.wf = true := by decide
theorem witness_EveryWordDecodesByOpcode : EncodingTables.standard.wf = true ∧ otherTables.wf = true := by decide
theorem witness_IgnoredBitsDoNotMatter : otherTables.wf = true ∧ decodeWith otherTables 0x2014 = .ok (.jmp 5) ∧
    (0x2017 : Word) &&& Format.j.usedBits otherTables.layout = 0x2014 &&& Format.j.usedBits otherTables.layout := by
  decide
theorem witness_MeaningsDoNotDependOnTheTables : base.halted = false ∧ base.pc.toNat < base.imageLen.val ∧
    decodeWith otherTables (ImageRom.word base.imem base.pc.toNat) = .ok .hlt ∧
    ∃ t, exec .hlt base = .next t := ⟨rfl, by decide, rfl, _, rfl⟩
theorem witness_PlacedInstructionRunsNext : base.config.wf = true ∧
    Config.wf { base.config with tables := otherTables } = true := by decide
theorem witness_ImageFileIsBigEndian : ([0xA2, 0x05, 0x10, 0x00] : List Byte)[2 * 1]? = some 0x10 ∧
    ([0xA2, 0x05, 0x10, 0x00] : List Byte)[2 * 1 + 1]? = some 0x00 := by decide
theorem witness_ImageFileRoundTrip : (List.replicate 1024 (0 : Word)).length ≤ 1024 ∧
    2048 < (List.replicate 2050 (0 : Byte)).length ∧ ([0x10] : List Byte).length % 2 = 1 := by
  simp only [List.length_replicate]
  decide
theorem witness_ResetForgetsTheSession : sameFixed State.reset { State.reset with pc := 5 } ∧
    Sys2Proof.core.run 1 (placed .nop) = .next (after base 0) := ⟨⟨rfl, rfl, rfl, rfl⟩, rfl⟩
/-- At 1024 words and past them, and at the last address of DBG with the largest line. -/
theorem witness_LoadPlacesTheImage : 1024 < (List.replicate 1025 (0 : Word)).length ∧
    (List.replicate 1024 (0 : Word)).length ≤ 1024 ∧
    (∀ e ∈ ([⟨0, 0⟩, ⟨65535, 1023⟩] : List LineEntry), e.address < 1024 ∧ e.line < 2 ^ State.reset.config.lineWidth) ∧
    loaded.isSome = true ∧ ([0xA205, 0x1000] : List Word)[1]? = some 0x1000 := by
  simp only [List.length_replicate]
  decide
theorem witness_LoadFillsTheDebugRom : loaded.isSome = true ∧
    (([⟨3, 0⟩, ⟨4, 1⟩] : List LineEntry).map LineEntry.address).Nodup ∧ (1 : PcVal).toNat = 1 ∧
    (1024 : PcVal).toNat ∉ ([⟨3, 0⟩, ⟨4, 1⟩] : List LineEntry).map LineEntry.address := by decide
theorem witness_LoadedStateIsGood : State.reset.config.wf = true ∧ loaded.isSome = true := by decide
theorem witness_StepRunsTheDecodedInstruction : (placed (.adi .r1 0xFF)).reaches (.adi .r1 0xFF) :=
  ⟨rfl, by decide, rfl⟩
theorem witness_ErrorChecksComeInOrder : (after base 0x1000).halted = true ∧ State.reset.halted = false ∧
    State.reset.imageLen.val ≤ State.reset.pc.toNat := by decide
/-- `shallow` with a full stack and a cal at the pc. -/
def full : State := { shallow with stack := [7] }.withFetchWord 16 0x4000

/-- `base` with an opcode map that is not legal: it has no opcode at all. -/
def mapless : State := { base with config := { Config.standard with tables := ⟨[], FieldLayout.standard⟩ } }

/-- One state for each error of R154, each within its stack depth. -/
theorem witness_ErrorsHaveExactlyTheirCauses :
    (∀ n, full.config.stackDepth = some n → full.stack.length ≤ n) ∧
    step full = .next (full.raise .stackOverflow) ∧
    step { base with halted := true } = .next ({ base with halted := true }.raise .stepWhileHalted) ∧
    step State.reset = .next (State.reset.raise .fetchOutOfImage) ∧
    step (placed (.pld .r1 7)) = .next ((placed (.pld .r1 7)).raise .notImplemented) ∧
    step (placed .ret) = .next ((placed .ret).raise .stackUnderflow) ∧
    step (faulting.withFetchWord 16 0x823F) =
      .next ((faulting.withFetchWord 16 0x823F).raise .memOutOfRange) ∧
    step mapless = .next (mapless.raise .unknownOpcode) ∧ base.config.tables.wf = true := by
  refine ⟨?_, rfl, rfl, rfl, rfl, rfl, rfl, rfl, by decide⟩
  intro n h
  have h' : some 1 = some n := h
  cases h'
  decide
theorem witness_ErrorStepsChangeOnlyTheLatches : step State.reset = .next (State.reset.raise .fetchOutOfImage) := rfl
theorem witness_ErrorsRepeatUntilReset : step (placed .ret) = .next ((placed .ret).raise .stackUnderflow) := rfl
theorem witness_StepKeepsTheInvariant : base.Inv ∧ step base = .next (base.advance.latch .ok) := by
  refine ⟨⟨by decide, by decide, by decide, by decide, by decide, ?_, by decide, by decide, by decide⟩, rfl⟩
  intro n h
  simp [base, State.reset, Config.standard] at h
theorem witness_R0IsHardwired : (∃ t, exec (.add .r3 .r1 .r2) base = .next t) ∧ (∃ t, exec (.ldi .r1 9) base = .next t) ∧
    (∃ t, exec (.mld .r1 .r2 31) base = .next t) ∧ (∃ t, exec (.sub .r1 .r2 .r3) base = .next t) ∧
    (∃ t, exec (.bit .r1 .r2 .xnor .r3) base = .next t) ∧ (∃ t, exec (.rsh .r1 .r2) base = .next t) ∧
    ∃ t, exec (.adi .r0 0x80) base = .next t :=
  ⟨⟨_, rfl⟩, ⟨_, rfl⟩, ⟨_, rfl⟩, ⟨_, rfl⟩, ⟨_, rfl⟩, ⟨_, rfl⟩, ⟨_, rfl⟩⟩
theorem witness_FlagsAreWrittenByFourAndReadByBrh : (∃ t, exec (.adi .r1 1) base = .next t) ∧
    (Instr.adi .r1 1).form ∈ [Form.add, .sub, .adi, .bit] ∧ (∃ t, exec (.brh .lt 9) base = .next t) ∧
    (Instr.brh .lt 9).form ∉ [Form.add, .sub, .adi, .bit] ∧ (∃ t, exec (.rsh .r1 .r2) base = .next t) ∧
    (Instr.rsh .r1 .r2).form ∉ [Form.add, .sub, .adi, .bit, .brh] :=
  ⟨⟨_, rfl⟩, by decide, ⟨_, rfl⟩, by decide, ⟨_, rfl⟩, by decide⟩
theorem witness_OnlyHltHalts : (placed .hlt).halted = false ∧ step (placed .hlt) = .next (after base 0x1000) ∧
    (after base 0x1000).halted = true ∧
    step (after base 0x1000) = .next ((after base 0x1000).raise .stepWhileHalted) := ⟨rfl, rfl, rfl, rfl⟩
theorem witness_OnlyDestinationsChange : step (placed (.ldi .r7 0xFF)) = .next (after base 0xAEFF) ∧
    (after base 0xAEFF).reg .r7 ≠ (placed (.ldi .r7 0xFF)).reg .r7 := ⟨rfl, by decide⟩
theorem witness_OnlyMstWritesMemory :
    step ((base.setReg .r1 9).withFetchWord 16 0x923F) = .next (after (base.setReg .r1 9) 0x923F) ∧
    (after (base.setReg .r1 9) 0x923F).memRead 0xFF ≠ ((base.setReg .r1 9).withFetchWord 16 0x923F).memRead 0xFF :=
  ⟨rfl, by decide⟩
theorem witness_ProgramIsNeverWritten : Sys2Proof.core.run 2 (placed .nop) =
    .next { after base 0 with pc := 2 } := rfl
theorem witness_DebugRomIsNeverRead : step (placed (.cal 1023)) = .next (after base 0x43FF) ∧
    DebugRom.lookup [(1023, some 7)] 1023 = some 7 := ⟨rfl, rfl⟩
theorem witness_StackIsHidden : (∃ t, exec (.cal 3) base = .next t ∧ t.status.isError = false) ∧
    (∃ u, exec (.cal 3) { base with stack := [7] } = .next u ∧ u.status.isError = false) ∧
    (∃ t, exec .ret { base with stack := [1023] } = .next t ∧ t.status.isError = false) ∧
    (∃ u, exec .ret { base with stack := [0, 1] } = .next u ∧ u.status.isError = false) ∧
    ∃ t, exec .nop base = .next t := ⟨⟨_, rfl, rfl⟩, ⟨_, rfl, rfl⟩, ⟨_, rfl, rfl⟩, ⟨_, rfl, rfl⟩, ⟨_, rfl⟩⟩
theorem witness_JmpSetsThePc : State.reset.halted = false ∧ State.reset.imageLen.val ≤ (0 : IAddr).toNat := by decide
theorem witness_BranchAfterCompareIsSigned : ∃ t u, exec (.sub .r0 .r1 .r2) (base.setReg .r1 0x80) = .next t ∧
    exec (.brh .lt 9) t = .next u := ⟨_, _, rfl, rfl⟩
/-- Room for exactly one more entry, and none. -/
theorem witness_CalPushesItsOwnAddress : (∀ n, shallow.config.stackDepth = some n → shallow.stack.length < n) ∧
    shallow.config.stackDepth = some ([7] : List IAddr).length := by
  refine ⟨?_, rfl⟩
  intro n h
  have h' : some 1 = some n := h
  cases h'
  decide
theorem witness_RetGoesPastTheSavedAddress : ({ base with stack := [1023] } : State).stack = 1023 :: [] ∧
    ({ base with pc := 1024 } : State).halted = false ∧ (placed .ret).stack = [] ∧ (placed .ret).reaches .ret :=
  ⟨rfl, rfl, rfl, rfl, by decide, rfl⟩
theorem witness_RetUndoesCal : ∃ t v, ({ base with pc := 1023 } : State).pc.toNat < 1024 ∧
    exec (.cal 0) { base with pc := 1023 } = .next t ∧ t.status = .ok ∧ exec .ret t = .next v :=
  ⟨_, _, by decide, rfl, rfl, rfl⟩
/-- In range at both ends of the data memory under the fault policy, and out of range just past them. -/
theorem witness_MldLoadsTheByte : base.config.eaPolicy = .wrap ∧ faulting.config.eaPolicy = .fault ∧
    (u8 ((faulting.setReg .r2 0x20).reg .r2) : Int) + s6 0x20 = 0 ∧
    (u8 ((faulting.setReg .r2 0xE0).reg .r2) : Int) + s6 0x1F = 255 := by decide
theorem witness_MstStoresTheByte : (faulting.address .r0 0).isSome = true ∧ (base.address .r0 0x3F).isSome = true := by
  decide
theorem witness_OutOfRangeAccessTraps : faulting.config.eaPolicy = .fault ∧
    (u8 (faulting.reg .r0) : Int) + s6 0x3F = -1 ∧
    (u8 ((faulting.setReg .r1 0xFF).reg .r1) : Int) + s6 1 = 256 := by decide
/-- The same byte through another base and offset, and through a wrapped sum. -/
theorem witness_LoadAfterStoreGivesTheByte : ∃ t, exec (.mst .r3 .r4 1) ((base.setReg .r3 0xFE).setReg .r4 0xFF) = .next t ∧
    t.status = .ok ∧ t.address .r3 2 = ((base.setReg .r3 0xFE).setReg .r4 0xFF).address .r4 1 ∧
    t.address .r0 0 = ((base.setReg .r3 0xFE).setReg .r4 0xFF).address .r4 1 := ⟨_, rfl, rfl, rfl, rfl⟩
theorem witness_FaultPolicyAddressIsExact : effectiveAddress .fault 0xFF 0 = some 0xFF ∧
    effectiveAddress .fault 0 0 = some 0 := by decide
theorem witness_BitWritesTheSelectedFunction : base.config.bitwiseCarry = .signed ∧
    ({ Config.standard with bitwiseCarry := .unsigned } : Config).bitwiseCarry = .unsigned := ⟨rfl, rfl⟩
theorem witness_BitwiseCarryReadings : 8 < 9 ∧ 8 ≤ 8 := by decide
theorem witness_ImmediatesAreMasked : parseLiteral "x".toList = none ∧ parseLiteral "-129".toList = some (-129) ∧
    parseLiteral "256".toList = some 256 ∧ parseLiteral "-0x80".toList = some (-128) ∧
    parseLiteral "0b11111111".toList = some 255 := by decide
theorem witness_AssembledImagesFit : (assemble .standard "p" "a: nop\njmp a").toOption.isSome = true := by decide
/-- An operand error on the last line, an error that is no operand's, and a run that succeeds. -/
theorem witness_AssemblerRunsPrintOrWrite : errorOf "nop\nldi r1, 256" = some (2, .outOfRange) ∧
    AsmError.ofOperand .outOfRange = true ∧ errorOf "foo" = some (1, .unknownMnemonic) ∧
    AsmError.ofOperand .unknownMnemonic = false ∧ (assemble .standard "p" "hlt").toOption.isSome = true := by decide

end Sys2Proof.Tests
end

section
/-! PROOF. The encoding tables and the meanings (R10): changing the tables commutes with every operation over the state,
hence with every instruction; a step uses them only to decode. -/

namespace Sys2Proof.Machine

/-! ## The state under other tables -/

/-- `s` with the encoding tables `e`, which stand in its parameters (R10). -/
def State.withTables (s : State) (e : EncodingTables) : State := { s with config := { s.config with tables := e } }

/-- An outcome whose next state, if any, is given the encoding tables `e`. -/
def outcomeWithTables (e : EncodingTables) : Host.Outcome State Fault Refusal → Host.Outcome State Fault Refusal
  | .next t => .next (t.withTables e)
  | .fault r => .fault r
  | .refused r => .refused r

@[simp] theorem outcomeWithTables_next (e : EncodingTables) (t : State) :
    outcomeWithTables e (.next t) = .next (t.withTables e) := rfl

section
variable (s : State) (e : EncodingTables)

/-! ## What chooses an instruction's outcome, unchanged by the tables -/

@[simp] theorem State.withTables_z : (s.withTables e).z = s.z := rfl
@[simp] theorem State.withTables_c : (s.withTables e).c = s.c := rfl
@[simp] theorem State.withTables_stack : (s.withTables e).stack = s.stack := rfl
@[simp] theorem State.withTables_stackDepth : (s.withTables e).config.stackDepth = s.config.stackDepth := rfl
@[simp] theorem State.withTables_ownAddress : (s.withTables e).ownAddress = s.ownAddress := rfl
@[simp] theorem State.withTables_address (rb : Reg) (off : Off) :
    (s.withTables e).address rb off = s.address rb off := rfl

/-! ## The ways a step ends -/

theorem complete_withTables : complete (s.withTables e) = outcomeWithTables e (complete s) := rfl

theorem raiseError_withTables (err : StepError) :
    raiseError err (s.withTables e) = outcomeWithTables e (raiseError err s) := rfl

theorem writeBack_withTables (ra : Reg) (w : WriteBack) :
    writeBack ra w (s.withTables e) = outcomeWithTables e (writeBack ra w s) := by
  obtain ⟨v, flags⟩ := w
  cases flags <;> rfl

/-! ## The instructions whose outcome is chosen by the state -/

theorem execBrh_withTables (cond : Cond) (addr : IAddr) :
    execBrh cond addr (s.withTables e) = outcomeWithTables e (execBrh cond addr s) := by
  rw [execBrh, execBrh, State.withTables_z, State.withTables_c]
  split
  · exact complete_withTables (s.jump addr) e
  · exact complete_withTables s.advance e

theorem execCal_withTables (addr : IAddr) :
    execCal addr (s.withTables e) = outcomeWithTables e (execCal addr s) := by
  rw [execCal_eq, execCal_eq, State.withTables_stackDepth, State.withTables_stack, State.withTables_ownAddress]
  split
  · exact raiseError_withTables s e .stackOverflow
  · exact complete_withTables ({ s with stack := s.ownAddress :: s.stack }.jump addr) e

theorem execRet_withTables : execRet (s.withTables e) = outcomeWithTables e (execRet s) := by
  cases h : s.stack with
  | nil =>
    rw [execRet_nil h, execRet_nil ((s.withTables_stack e).trans h)]
    exact raiseError_withTables s e .stackUnderflow
  | cons v rest =>
    rw [execRet_cons h, execRet_cons ((s.withTables_stack e).trans h)]
    exact complete_withTables ({ s with stack := rest }.jump v).advance e

theorem execMld_withTables (ra rb : Reg) (off : Off) :
    execMld ra rb off (s.withTables e) = outcomeWithTables e (execMld ra rb off s) := by
  cases h : s.address rb off with
  | none =>
    rw [execMld_none h, execMld_none ((s.withTables_address e rb off).trans h)]
    exact raiseError_withTables s e .memOutOfRange
  | some a =>
    rw [execMld_some h, execMld_some ((s.withTables_address e rb off).trans h)]
    exact writeBack_withTables s e ra (plain (s.memRead a))

theorem execMst_withTables (ra rb : Reg) (off : Off) :
    execMst ra rb off (s.withTables e) = outcomeWithTables e (execMst ra rb off s) := by
  cases h : s.address rb off with
  | none =>
    rw [execMst_none h, execMst_none ((s.withTables_address e rb off).trans h)]
    exact raiseError_withTables s e .memOutOfRange
  | some a =>
    rw [execMst_some h, execMst_some ((s.withTables_address e rb off).trans h)]
    exact complete_withTables (s.memWrite a (s.reg ra)).advance e

/-! ## Every instruction, and the step -/

/-- No meaning depends on the encoding tables (R10). -/
theorem exec_withTables (i : Instr) : exec i (s.withTables e) = outcomeWithTables e (exec i s) := by
  cases i with
  | nop => exact complete_withTables s.advance e
  | hlt => rfl
  | jmp addr => exact complete_withTables (s.jump addr) e
  | brh cond addr => exact execBrh_withTables s e cond addr
  | cal addr => exact execCal_withTables s e addr
  | ret => exact execRet_withTables s e
  | pld _ _ => exact raiseError_withTables s e .notImplemented
  | pst _ _ => exact raiseError_withTables s e .notImplemented
  | mld ra rb off => exact execMld_withTables s e ra rb off
  | mst ra rb off => exact execMst_withTables s e ra rb off
  | ldi ra imm => exact writeBack_withTables s e ra (plain imm)
  | adi ra imm => exact writeBack_withTables s e ra (arithmetic (s8 (s.reg ra) + s8 imm))
  | add ra rb rc => exact writeBack_withTables s e ra (arithmetic (s8 (s.reg rb) + s8 (s.reg rc)))
  | sub ra rb rc => exact writeBack_withTables s e ra (arithmetic (s8 (s.reg rb) - s8 (s.reg rc)))
  | bit ra rb sel rc =>
    exact writeBack_withTables s e ra (bitwise s.config.bitwiseCarry sel (s.reg rb) (s.reg rc))
  | rsh ra rb => exact writeBack_withTables s e ra (plain (BitVec.ofNat 8 (u8 (s.reg rb) / 2)))

end

/-- A step that passes the halted check, the fetch and the decode runs the decoded instruction (R110, R155). -/
theorem step_of_decode {s : State} {i : Instr} (hrun : s.halted = false) (hfetch : s.pc.toNat < s.imageLen.val)
    (hdec : s.decode (ImageRom.word s.imem s.pc.toNat) = .ok i) : step s = exec i s := by
  rw [step_eq, if_neg (by simp [hrun]), if_neg (by omega), hdec]

/-- Settles O59: the meanings commute with a change of tables, and the step decodes by the tables of its own state. -/
theorem meaningsDoNotDependOnTheTables : Obligations.MeaningsDoNotDependOnTheTables := by
  intro s e
  constructor
  · intro i t hexec
    have hcomm := exec_withTables s e i
    rw [hexec, outcomeWithTables_next] at hcomm
    exact hcomm
  · intro i hrun hfetch hdec
    exact step_of_decode (s := s.withTables e) hrun hfetch hdec

end Sys2Proof.Machine
end

section
/-! PROOF. What one instruction can do (R110), said once for all 16 forms, and what one step can do in terms of it. Every
whole-machine rule of 10_state.md below is read off these cases. -/

namespace Sys2Proof

/-- The register that an instruction names as its destination (R24). -/
def Instr.dest : Instr → Option Reg
  | .mld ra _ _ | .ldi ra _ | .adi ra _ | .add ra _ _ | .sub ra _ _ | .bit ra _ _ _ | .rsh ra _ => some ra
  | .nop | .hlt | .jmp _ | .brh _ _ | .cal _ | .ret | .pld _ _ | .pst _ _ | .mst _ _ _ => none

/-- The instructions with a given destination, written out. -/
theorem Instr.dest_eq_some {i : Instr} {r : Reg} (h : i.dest = some r) :
    (∃ v, i = .ldi r v ∨ i = .adi r v) ∨ (∃ rb rc, i = .add r rb rc ∨ i = .sub r rb rc) ∨
      (∃ rb f rc, i = .bit r rb f rc) ∨ (∃ rb, i = .rsh r rb) ∨ ∃ rb o, i = .mld r rb o := by
  cases i with
  | nop | hlt | jmp | brh | cal | ret | pld | pst | mst => cases h
  | ldi ra v | adi ra v | add ra rb rc | sub ra rb rc | bit ra rb f rc | rsh ra rb | mld ra rb o =>
    obtain rfl : ra = r := Option.some.inj h
    simp

theorem Instr.form_eq_cal {i : Instr} (h : i.form = .cal) : ∃ a, i = .cal a := by
  cases i with
  | cal a => exact ⟨a, rfl⟩
  | _ => cases h

theorem Instr.form_eq_ret {i : Instr} (h : i.form = .ret) : i = .ret := by
  cases i with
  | ret => rfl
  | _ => cases h

/-- The four forms that write the flags (R33). -/
abbrev flagWriters : List Form := [.add, .sub, .adi, .bit]

end Sys2Proof

namespace Sys2Proof.Machine

/-! ## What one instruction can do -/

/-- The next states an instruction can lead to, by the way its step ends. -/
inductive ExecCase (i : Instr) (s : State) : State → Prop where
  /-- An error of the instruction's own; the halted check is not one (R155). -/
  | raised (e : StepError) (hne : e ≠ .stepWhileHalted) : ExecCase i s (s.raise e)
  /-- `hlt` (R113). -/
  | stopped (hi : i = .hlt) : ExecCase i s ({ s with halted := true }.latch .halted)
  /-- The pc advances and nothing else changes (R112, R115). -/
  | advanced : ExecCase i s (s.advance.latch .ok)
  /-- A jump or a taken branch (R114, R115). -/
  | jumped (a : IAddr) : ExecCase i s ((s.jump a).latch .ok)
  /-- A `cal` with room on the stack (R117). -/
  | called (a : IAddr) (hroom : stackFull s.config.stackDepth s.stack.length = false) :
      ExecCase i s (({ s with stack := s.ownAddress :: s.stack }.jump a).latch .ok)
  /-- A `ret` on a nonempty stack (R118). -/
  | returned (v : IAddr) (rest : List IAddr) (hstack : s.stack = v :: rest) :
      ExecCase i s (({ s with stack := rest }.jump v).advance.latch .ok)
  /-- A write-back to the destination, with flags only for the four writers (R33, R135). -/
  | wrote (ra : Reg) (w : WriteBack) (t : State) (hwb : writeBack ra w s = .next t)
      (hdest : i.dest = some ra) (hflags : w.flags = none ∨ i.form ∈ flagWriters) : ExecCase i s t
  /-- An `mst` whose address is in range (R129). -/
  | stored (ra rb : Reg) (off : Off) (a : Byte) (hi : i = .mst ra rb off) (haddr : s.address rb off = some a) :
      ExecCase i s ((s.memWrite a (s.reg ra)).advance.latch .ok)

theorem execCase_brh {cond : Cond} {addr : IAddr} {s t : State} (h : execBrh cond addr s = .next t) :
    ExecCase (.brh cond addr) s t := by
  obtain rfl := complete_next.mp h
  split
  · exact .jumped addr
  · exact .advanced

theorem execCase_cal {addr : IAddr} {s t : State} (h : execCal addr s = .next t) : ExecCase (.cal addr) s t := by
  rw [execCal_eq] at h
  split at h
  next => obtain rfl := raiseError_next.mp h; exact .raised _ (by decide)
  next hroom => obtain rfl := complete_next.mp h; exact .called addr (by simpa using hroom)

theorem execCase_ret {s t : State} (h : execRet s = .next t) : ExecCase .ret s t := by
  cases hstack : s.stack with
  | nil =>
    rw [execRet_nil hstack] at h
    obtain rfl := raiseError_next.mp h
    exact .raised _ (by decide)
  | cons v rest =>
    rw [execRet_cons hstack] at h
    obtain rfl := complete_next.mp h
    exact .returned v rest hstack

theorem execCase_mld {ra rb : Reg} {off : Off} {s t : State} (h : execMld ra rb off s = .next t) :
    ExecCase (.mld ra rb off) s t := by
  cases haddr : s.address rb off with
  | none =>
    rw [execMld_none haddr] at h
    obtain rfl := raiseError_next.mp h
    exact .raised _ (by decide)
  | some a =>
    rw [execMld_some haddr] at h
    exact .wrote _ _ _ h rfl (.inl rfl)

theorem execCase_mst {ra rb : Reg} {off : Off} {s t : State} (h : execMst ra rb off s = .next t) :
    ExecCase (.mst ra rb off) s t := by
  cases haddr : s.address rb off with
  | none =>
    rw [execMst_none haddr] at h
    obtain rfl := raiseError_next.mp h
    exact .raised _ (by decide)
  | some a =>
    rw [execMst_some haddr] at h
    obtain rfl := complete_next.mp h
    exact .stored ra rb off a rfl haddr

/-- Everything an instruction that answers a next state can have done. -/
theorem exec_cases {i : Instr} {s t : State} (h : exec i s = .next t) : ExecCase i s t := by
  cases i with
  | nop => obtain rfl := complete_next.mp h; exact .advanced
  | hlt => cases h; exact .stopped rfl
  | jmp addr => obtain rfl := complete_next.mp h; exact .jumped addr
  | brh cond addr => exact execCase_brh h
  | cal addr => exact execCase_cal h
  | ret => exact execCase_ret h
  | pld ra port => obtain rfl := raiseError_next.mp h; exact .raised _ (by decide)
  | pst ra port => obtain rfl := raiseError_next.mp h; exact .raised _ (by decide)
  | mld ra rb off => exact execCase_mld h
  | mst ra rb off => exact execCase_mst h
  | ldi ra imm => exact .wrote _ _ _ h rfl (.inl rfl)
  | adi ra imm => exact .wrote _ _ _ h rfl (.inr (by simp [Instr.form]))
  | add ra rb rc => exact .wrote _ _ _ h rfl (.inr (by simp [Instr.form]))
  | sub ra rb rc => exact .wrote _ _ _ h rfl (.inr (by simp [Instr.form]))
  | bit ra rb sel rc => exact .wrote _ _ _ h rfl (.inr (by simp [Instr.form]))
  | rsh ra rb => exact .wrote _ _ _ h rfl (.inl rfl)

/-! ## What every instruction leaves unchanged -/

/-- No instruction writes a parameter, IMEM, IMAGE_LEN or DBG (R37, R42, R51). -/
theorem ExecCase.sameFixed {i : Instr} {s t : State} (h : ExecCase i s t) : sameFixed s t := by
  cases h with
  | wrote ra w t hwb hdest hflags =>
    obtain ⟨-, -, -, -, -, -, -, -, hconfig, himem, hlen, hdbg⟩ := writeBack_next hwb
    exact ⟨hconfig, himem, hlen, hdbg⟩
  | _ => exact ⟨rfl, rfl, rfl, rfl⟩

/-- Only `hlt` sets the Halted bit (R36). -/
theorem ExecCase.halted {i : Instr} {s t : State} (h : ExecCase i s t) : i = .hlt ∨ t.halted = s.halted := by
  cases h with
  | stopped hi => exact .inl hi
  | wrote ra w t hwb hdest hflags =>
    obtain ⟨-, -, -, -, -, hhalted, -⟩ := writeBack_next hwb
    exact .inr hhalted
  | _ => exact .inr rfl

/-- A register changes only as the instruction's destination (R24). -/
theorem ExecCase.reg {i : Instr} {s t : State} (h : ExecCase i s t) (r : Reg) :
    i.dest = some r ∨ t.reg r = s.reg r := by
  cases h with
  | wrote ra w t hwb hdest hflags =>
    obtain ⟨hregs, -⟩ := writeBack_next hwb
    by_cases hr : r = ra
    · exact .inl (hr ▸ hdest)
    · right
      rw [State.reg, hregs, RegFile.read_write, if_neg (by simp [hr]), State.reg]
  | _ => exact .inr rfl

/-- A byte of memory changes only by a store to its address (R52). -/
theorem ExecCase.memRead {i : Instr} {s t : State} (h : ExecCase i s t) (b : Byte) :
    (∃ ra rb off, i = .mst ra rb off ∧ s.address rb off = some b ∧ t.memRead b = s.reg ra) ∨
      t.memRead b = s.memRead b := by
  cases h with
  | wrote ra w t hwb hdest hflags =>
    obtain ⟨-, -, -, -, -, -, -, hdmem, -⟩ := writeBack_next hwb
    right
    rw [State.memRead, hdmem, State.memRead]
  | stored ra rb off a hi haddr =>
    by_cases hb : b = a
    · exact .inl ⟨ra, rb, off, hi, hb ▸ haddr, by simp [hb]⟩
    · exact .inr (by simp [hb])
  | _ => exact .inr rfl

/-- Both flags are kept by every form but the four writers (R33). -/
theorem ExecCase.sameFlags {i : Instr} {s t : State} (h : ExecCase i s t) (hform : i.form ∉ flagWriters) :
    sameFlags s t := by
  cases h with
  | wrote ra w t hwb hdest hflags =>
    obtain ⟨-, -, hzc, -⟩ := writeBack_next hwb
    rw [hflags.resolve_right hform, Option.getD_none] at hzc
    exact ⟨congrArg Prod.fst hzc, congrArg Prod.snd hzc⟩
  | _ => exact ⟨rfl, rfl⟩

/-! ## What one step can do -/

/-- A state reaches at most one instruction. -/
theorem State.reaches_unique {s : State} {i j : Instr} (hi : s.reaches i) (hj : s.reaches j) : i = j := by
  obtain ⟨-, -, hdeci⟩ := hi
  obtain ⟨-, -, hdecj⟩ := hj
  exact Except.ok.inj (hdeci.symm.trans hdecj)

/-- A step runs the instruction it reaches (R110). -/
theorem step_of_reaches {s : State} {i : Instr} (h : s.reaches i) : step s = exec i s := by
  obtain ⟨hrun, hfetch, hdec⟩ := h
  exact step_of_decode hrun hfetch hdec

/-- A step ends in an error before any instruction is reached, or has done what the reached instruction does. The error is
STEP_WHILE_HALTED exactly when the core was halted (R153, R155). -/
theorem step_raise_or_execCase {s t : State} (h : step s = .next t) :
    (∃ e, (s.halted = true ↔ e = .stepWhileHalted) ∧ t = s.raise e) ∨ ∃ i, s.reaches i ∧ ExecCase i s t := by
  obtain ⟨hh, rfl⟩ | ⟨hrun, -, rfl⟩ | ⟨hrun, -, -, rfl⟩ | ⟨hrun, hfetch, i, hdec, hexec⟩ := step_cases h
  · exact .inl ⟨_, by simp [hh], rfl⟩
  · exact .inl ⟨_, by simp [hrun], rfl⟩
  · exact .inl ⟨_, by simp [hrun], rfl⟩
  · exact .inr ⟨i, ⟨hrun, hfetch, hdec⟩, exec_cases hexec⟩

/-- No step writes a parameter, IMEM, IMAGE_LEN or DBG (R37, R42, R51). -/
theorem step_sameFixed {s t : State} (h : step s = .next t) : sameFixed s t := by
  obtain ⟨e, -, rfl⟩ | ⟨i, -, hcase⟩ := step_raise_or_execCase h
  · exact ⟨rfl, rfl, rfl, rfl⟩
  · exact hcase.sameFixed

end Sys2Proof.Machine
end

section
/-! PROOF. The invariant of Safety.lean: the reset state has it (O13) and every step keeps it (O22). -/

namespace Sys2Proof.Machine

/-- Settles O13: no memory is listed, the stack is empty and both latches are at their reset value. -/
theorem resetStateIsGood : Obligations.ResetStateIsGood where
  config_wf := by decide
  dmem_wf := Memory.reset_wf
  imem_wf := Store.wf_nil _ _
  dbg_wf := Store.wf_nil _ _
  pc_legal := by decide
  stack_bounded _ _ := Nat.zero_le _
  halted_iff := by decide
  errPc_error := by decide
  errPc_other _ := rfl

/-! ## The three ways a step ends -/

/-- An error keeps the invariant: it writes the latches alone, and agrees with the Halted bit. -/
theorem State.Inv.raise {s : State} (hs : s.Inv) {e : StepError} (he : s.halted = true ↔ e = .stepWhileHalted) :
    (s.raise e).Inv where
  config_wf := hs.config_wf
  dmem_wf := hs.dmem_wf
  imem_wf := hs.imem_wf
  dbg_wf := hs.dbg_wf
  pc_legal := hs.pc_legal
  stack_bounded := hs.stack_bounded
  halted_iff := by simp [he]
  errPc_error _ := rfl
  errPc_other h := by simp at h

/-- `hlt` keeps the invariant: the Halted bit and the status are set together (R113). -/
theorem State.Inv.halt {s : State} (hs : s.Inv) : ({ s with halted := true }.latch .halted).Inv where
  config_wf := hs.config_wf
  dmem_wf := hs.dmem_wf
  imem_wf := hs.imem_wf
  dbg_wf := hs.dbg_wf
  pc_legal := hs.pc_legal
  stack_bounded := hs.stack_bounded
  halted_iff := by simp
  errPc_error h := by simp at h
  errPc_other _ := rfl

/-- What a completing step has to show of the state `t` it ends in, the fixed parts being those of a good state. -/
theorem State.Inv.completed {s t : State} (hs : s.Inv) (hfixed : sameFixed s t) (hmem : Memory.wf t.dmem = true)
    (hpc : t.pc.toNat ≤ 1024) (hstack : ∀ n, s.config.stackDepth = some n → t.stack.length ≤ n)
    (hrun : t.halted = false) (hstatus : t.status = .ok) (herr : t.errPc = 0) : t.Inv := by
  obtain ⟨hconfig, himem, -, hdbg⟩ := hfixed
  exact
    { config_wf := hconfig ▸ hs.config_wf
      dmem_wf := hmem
      imem_wf := himem ▸ hs.imem_wf
      dbg_wf := hdbg ▸ hs.dbg_wf
      pc_legal := hpc
      stack_bounded := hconfig ▸ hstack
      halted_iff := by simp [hrun, hstatus]
      errPc_error := by simp [hstatus]
      errPc_other := fun _ => herr }

/-! ## The bounds a completing step keeps -/

/-- A pc inside the image advances to at most 1024 (R27). -/
theorem advance_pc_le {s : State} (hfetch : s.pc.toNat < s.imageLen.val) : (s.pc + 1).toNat ≤ 1024 := by
  have hlen := s.imageLen.isLt
  have hpc : s.pc.toNat < 1024 := by omega
  bv_omega

/-- A 10-bit target is a legal pc (R27). -/
theorem target_le (a : IAddr) : (a.setWidth 11 : PcVal).toNat ≤ 1024 := by
  bv_omega

/-- One past a 10-bit address is a legal pc (R27). -/
theorem target_succ_le (a : IAddr) : (a.setWidth 11 + 1 : PcVal).toNat ≤ 1024 := by
  bv_omega

/-- A push that the stack unit takes stays within the capacity (R34). -/
theorem push_length_le {s : State} (hroom : stackFull s.config.stackDepth s.stack.length = false) {n : Nat}
    (hdepth : s.config.stackDepth = some n) : s.stack.length + 1 ≤ n := by
  by_contra hlt
  have hfull := (stackFull_iff s.config.stackDepth s.stack.length).mpr ⟨n, hdepth, by omega⟩
  simp [hfull] at hroom

/-! ## Every instruction and every step -/

/-- An instruction run inside the image on a running core keeps the invariant. -/
theorem ExecCase.inv {i : Instr} {s t : State} (hcase : ExecCase i s t) (hs : s.Inv) (hrun : s.halted = false)
    (hfetch : s.pc.toNat < s.imageLen.val) : t.Inv := by
  have hfixed := hcase.sameFixed
  cases hcase with
  | raised e hne => exact hs.raise (by simp [hrun, hne])
  | stopped hi => exact hs.halt
  | advanced => exact hs.completed hfixed hs.dmem_wf (advance_pc_le hfetch) hs.stack_bounded hrun rfl rfl
  | jumped a => exact hs.completed hfixed hs.dmem_wf (target_le a) hs.stack_bounded hrun rfl rfl
  | called a hroom =>
    exact hs.completed hfixed hs.dmem_wf (target_le a) (fun n hdepth => push_length_le hroom hdepth) hrun rfl rfl
  | returned v rest hstack =>
    refine hs.completed hfixed hs.dmem_wf (target_succ_le v) (fun n hdepth => ?_) hrun rfl rfl
    have hbound := hs.stack_bounded n hdepth
    rw [hstack, List.length_cons] at hbound
    exact Nat.le_of_succ_le hbound
  | wrote ra w t hwb hdest hflags =>
    obtain ⟨-, hpc, -, hstatus, herr, hhalted, hstack, hdmem, -⟩ := writeBack_next hwb
    exact hs.completed hfixed (hdmem ▸ hs.dmem_wf) (hpc ▸ advance_pc_le hfetch) (hstack ▸ hs.stack_bounded)
      (hhalted.trans hrun) hstatus herr
  | stored ra rb off a hi haddr =>
    exact hs.completed hfixed (Memory.write_wf a (s.reg ra) hs.dmem_wf) (advance_pc_le hfetch) hs.stack_bounded hrun
      rfl rfl

/-- Settles O22: an error before the instruction writes the latches alone, and each case of an instruction keeps the
invariant. -/
theorem stepKeepsTheInvariant : Obligations.StepKeepsTheInvariant := by
  intro s t hs hstep
  obtain ⟨e, he, rfl⟩ | ⟨i, ⟨hrun, hfetch, -⟩, hcase⟩ := step_raise_or_execCase hstep
  · exact hs.raise he
  · exact hcase.inv hs hrun hfetch

end Sys2Proof.Machine
end

section
/-! PROOF. The whole-machine rules of 10_state.md: the Halted bit (O25), registers (O26), data memory (O27) and the parts
that no run writes (O28). -/

namespace Sys2Proof.Machine

/-- Settles O25: a step that reaches `hlt` sets the bit, and every other way a step ends keeps it. -/
theorem onlyHltHalts : Obligations.OnlyHltHalts := by
  refine ⟨fun s t hstep hrun => ⟨fun hhalted => ?_, fun hreach => ?_⟩, fun s t hstep hhalted => ?_,
    fun s => ⟨rfl, rfl⟩⟩
  · obtain ⟨e, -, rfl⟩ | ⟨i, hreach, hcase⟩ := step_raise_or_execCase hstep
    · simp [hrun] at hhalted
    · obtain rfl | hkept := hcase.halted
      · exact hreach
      · simp [hkept, hrun] at hhalted
  · rw [step_of_reaches hreach] at hstep
    cases hstep
    rfl
  · rw [step_halted hhalted, raiseError_next] at hstep
    subst hstep
    exact hhalted

/-- Settles O26: an error changes no register, and an instruction only its destination. -/
theorem onlyDestinationsChange : Obligations.OnlyDestinationsChange := by
  intro s t r hstep hchanged
  refine ⟨fun hr => hchanged (by rw [hr, State.reg_r0, State.reg_r0]), ?_⟩
  obtain ⟨e, -, rfl⟩ | ⟨i, hreach, hcase⟩ := step_raise_or_execCase hstep
  · exact absurd rfl hchanged
  · have hdest : i.dest = some r := (hcase.reg r).resolve_right hchanged
    obtain ⟨v, rfl | rfl⟩ | ⟨rb, rc, rfl | rfl⟩ | ⟨rb, f, rc, rfl⟩ | ⟨rb, rfl⟩ | ⟨rb, o, rfl⟩ :=
      Instr.dest_eq_some hdest
    · exact .inl ⟨v, .inl hreach⟩
    · exact .inl ⟨v, .inr hreach⟩
    · exact .inr (.inl ⟨rb, rc, .inl hreach⟩)
    · exact .inr (.inl ⟨rb, rc, .inr hreach⟩)
    · exact .inr (.inr (.inl ⟨rb, f, rc, hreach⟩))
    · exact .inr (.inr (.inr (.inl ⟨rb, hreach⟩)))
    · exact .inr (.inr (.inr (.inr ⟨rb, o, hreach⟩)))

/-- Settles O27: an error changes no byte, and an instruction only an `mst` the byte at its address. -/
theorem onlyMstWritesMemory : Obligations.OnlyMstWritesMemory := by
  intro s t a hstep hchanged
  obtain ⟨e, -, rfl⟩ | ⟨i, hreach, hcase⟩ := step_raise_or_execCase hstep
  · exact absurd rfl hchanged
  · obtain ⟨ra, rb, off, rfl, haddr, hread⟩ := (hcase.memRead a).resolve_right hchanged
    exact ⟨ra, rb, off, hreach, effectiveAddress_eq haddr, hread⟩

theorem sameFixed.trans {s t u : State} (hst : sameFixed s t) (htu : sameFixed t u) : sameFixed s u := by
  obtain ⟨hconfig, himem, hlen, hdbg⟩ := hst
  obtain ⟨hconfig', himem', hlen', hdbg'⟩ := htu
  exact ⟨hconfig'.trans hconfig, himem'.trans himem, hlen'.trans hlen, hdbg'.trans hdbg⟩

/-- A run of `n + 1` steps that answers a next state is a step and then a run of `n`. -/
theorem run_succ {M : Host.Core} {n : Nat} {s t : M.State} (h : M.run (n + 1) s = .next t) :
    ∃ u, M.step s = .next u ∧ M.run n u = .next t := by
  rw [Host.Core.run] at h
  split at h
  next u hstep => exact ⟨u, hstep, h⟩
  all_goals cases h

/-- Settles O28, by induction on the number of steps. -/
theorem programIsNeverWritten : Obligations.ProgramIsNeverWritten := by
  intro n
  induction n with
  | zero =>
    intro s t hrun
    cases hrun
    exact ⟨rfl, rfl, rfl, rfl⟩
  | succ n ih =>
    intro s t hrun
    obtain ⟨u, hstep, hrest⟩ := run_succ hrun
    exact (step_sameFixed hstep).trans (ih u t hrest)

end Sys2Proof.Machine
end

section
/-! PROOF. The register r0 (R22, O23): a write-back to it does all that a write-back to another register does, the
register apart. -/

namespace Sys2Proof.Machine

/-- A write-back to r0 in place of `q` differs in the registers alone. -/
theorem writeBack_r0 {q : Reg} {w : WriteBack} {s t : State} (h : writeBack q w s = .next t) :
    writeBack .r0 w s = .next { t with regs := s.regs } := by
  obtain ⟨v, flags⟩ := w
  obtain rfl := complete_next.mp h
  cases flags <;> rfl

theorem execMld_r0 {q rb : Reg} {off : Off} {s t : State} (h : execMld q rb off s = .next t) :
    execMld .r0 rb off s = .next { t with regs := s.regs } := by
  cases haddr : s.address rb off with
  | none =>
    rw [execMld_none haddr] at h ⊢
    obtain rfl := raiseError_next.mp h
    rfl
  | some a =>
    rw [execMld_some haddr] at h ⊢
    exact writeBack_r0 h

/-- A write-back of an exact result sets both flags by it (R136, R137). -/
theorem writeBack_arithmetic_flagsOf {ra : Reg} {raw : Int} {s t : State}
    (h : writeBack ra (arithmetic raw) s = .next t) : flagsOf raw t := by
  obtain ⟨-, -, hzc, -⟩ := writeBack_next h
  obtain ⟨hz, hc⟩ : t.z = zeroFlag raw ∧ t.c = carryFlag raw := by simpa using hzc
  simp [flagsOf, hz, hc, zeroFlag, carryFlag]

/-- `adi r0` adds its immediate to zero, discards the sum and keeps its flags (R22, R139). -/
theorem execAdi_r0 {v : Byte} {s t : State} (h : execAdi .r0 v s = .next t) : t.regs = s.regs ∧ flagsOf (s8 v) t := by
  have hsum : s8 (s.reg .r0) + s8 v = s8 v := by simp [s8]
  rw [execAdi, hsum] at h
  obtain ⟨hregs, -⟩ := writeBack_next h
  exact ⟨hregs, writeBack_arithmetic_flagsOf h⟩

/-- Settles O23: each register writer ends in one write-back, and `mld` in one or in an error. -/
theorem r0IsHardwired : Obligations.R0IsHardwired :=
  ⟨State.reg_r0, State.setReg_r0, fun _ _ _ =>
    ⟨fun _ h => writeBack_r0 h, fun _ _ h => execMld_r0 h, fun _ _ h => writeBack_r0 h, fun _ _ h => writeBack_r0 h,
      fun _ _ _ h => writeBack_r0 h, fun _ h => writeBack_r0 h, fun _ h => execAdi_r0 h⟩⟩

end Sys2Proof.Machine
end

section
/-! PROOF. Noninterference: an update of the state that no operation of an instruction looks at commutes with the
instruction. Used for the flags (R33, O24) and for the call stack (R35, O30). -/

namespace Sys2Proof.Machine

/-- An outcome with `f` applied to its next state, if any. -/
def outcomeMap (f : State → State) : Host.Outcome State Fault Refusal → Host.Outcome State Fault Refusal
  | .next t => .next (f t)
  | .fault r => .fault r
  | .refused r => .refused r

/-- An update of the state that leaves alone what every instruction reads and writes: the parameters, the registers, the
data memory, the pc, the Halted bit and the latches. -/
structure Transparent (f : State → State) : Prop where
  config_eq : ∀ s, (f s).config = s.config
  reg_eq : ∀ s r, (f s).reg r = s.reg r
  memRead_eq : ∀ s a, (f s).memRead a = s.memRead a
  setReg_comm : ∀ s r v, (f s).setReg r v = f (s.setReg r v)
  memWrite_comm : ∀ s a v, (f s).memWrite a v = f (s.memWrite a v)
  jump_comm : ∀ s a, (f s).jump a = f (s.jump a)
  advance_comm : ∀ s, (f s).advance = f s.advance
  latch_comm : ∀ s st, (f s).latch st = f (s.latch st)
  raise_comm : ∀ s e, (f s).raise e = f (s.raise e)
  halt_comm : ∀ s, { f s with halted := true } = f { s with halted := true }

section
variable {f : State → State} (hf : Transparent f) (s : State)
include hf

theorem Transparent.address_eq (rb : Reg) (off : Off) : (f s).address rb off = s.address rb off := by
  rw [State.address, State.address, hf.config_eq, hf.reg_eq]

/-! ## The ways a step ends -/

theorem Transparent.complete_comm : complete (f s) = outcomeMap f (complete s) := by
  rw [complete, hf.latch_comm, complete, outcomeMap]

theorem Transparent.raiseError_comm (e : StepError) : raiseError e (f s) = outcomeMap f (raiseError e s) := by
  rw [raiseError, hf.raise_comm, raiseError, outcomeMap]

theorem Transparent.writeBack_plain_comm (ra : Reg) (v : Byte) :
    writeBack ra (plain v) (f s) = outcomeMap f (writeBack ra (plain v) s) := by
  simp only [writeBack, plain_value, plain_flags, State.applyFlags_none, hf.setReg_comm, hf.advance_comm,
    hf.complete_comm]

/-- A write-back with flags, where the update leaves the flags alone too. -/
theorem Transparent.writeBack_comm (hflags : ∀ s z c, (f s).setFlags z c = f (s.setFlags z c)) (ra : Reg)
    (w : WriteBack) : writeBack ra w (f s) = outcomeMap f (writeBack ra w s) := by
  obtain ⟨v, _ | ⟨z, c⟩⟩ := w
  · exact hf.writeBack_plain_comm s ra v
  · simp only [writeBack, State.applyFlags_some, hf.setReg_comm, hflags, hf.advance_comm, hf.complete_comm]

/-! ## The instructions whose outcome is chosen by the state -/

theorem Transparent.execBrh_comm (hz : (f s).z = s.z) (hc : (f s).c = s.c) (cond : Cond) (addr : IAddr) :
    execBrh cond addr (f s) = outcomeMap f (execBrh cond addr s) := by
  rw [execBrh, execBrh, hz, hc, hf.jump_comm, hf.advance_comm]
  split
  · exact hf.complete_comm (s.jump addr)
  · exact hf.complete_comm s.advance

theorem Transparent.execMld_comm (ra rb : Reg) (off : Off) :
    execMld ra rb off (f s) = outcomeMap f (execMld ra rb off s) := by
  cases h : s.address rb off with
  | none =>
    rw [execMld_none h, execMld_none ((hf.address_eq s rb off).trans h), hf.raiseError_comm]
  | some a =>
    rw [execMld_some h, execMld_some ((hf.address_eq s rb off).trans h), hf.memRead_eq, hf.writeBack_plain_comm]

theorem Transparent.execMst_comm (ra rb : Reg) (off : Off) :
    execMst ra rb off (f s) = outcomeMap f (execMst ra rb off s) := by
  cases h : s.address rb off with
  | none =>
    rw [execMst_none h, execMst_none ((hf.address_eq s rb off).trans h), hf.raiseError_comm]
  | some a =>
    rw [execMst_some h, execMst_some ((hf.address_eq s rb off).trans h), hf.reg_eq, hf.memWrite_comm, hf.advance_comm,
      hf.complete_comm]

/-! ## Every instruction but `cal` and `ret` -/

/-- A transparent update commutes with an instruction off the stack, given that it leaves alone the flags where the
instruction writes or reads them. -/
theorem Transparent.exec_comm {i : Instr} (hcal : i.form ≠ .cal) (hret : i.form ≠ .ret)
    (hwrites : i.form ∈ flagWriters → ∀ s z c, (f s).setFlags z c = f (s.setFlags z c))
    (hreads : i.form = .brh → (f s).z = s.z ∧ (f s).c = s.c) : exec i (f s) = outcomeMap f (exec i s) := by
  cases i with
  | nop =>
    change complete (f s).advance = outcomeMap f (complete s.advance)
    rw [hf.advance_comm, hf.complete_comm]
  | hlt =>
    change Host.Outcome.next ({ f s with halted := true }.latch .halted) = .next _
    rw [hf.halt_comm, hf.latch_comm]
  | jmp addr =>
    change complete ((f s).jump addr) = outcomeMap f (complete (s.jump addr))
    rw [hf.jump_comm, hf.complete_comm]
  | brh cond addr =>
    obtain ⟨hz, hc⟩ := hreads rfl
    exact hf.execBrh_comm s hz hc cond addr
  | cal addr => exact absurd rfl hcal
  | ret => exact absurd rfl hret
  | pld _ _ => exact hf.raiseError_comm s .notImplemented
  | pst _ _ => exact hf.raiseError_comm s .notImplemented
  | mld ra rb off => exact hf.execMld_comm s ra rb off
  | mst ra rb off => exact hf.execMst_comm s ra rb off
  | ldi ra imm => exact hf.writeBack_plain_comm s ra imm
  | adi ra imm =>
    change execAdi ra imm (f s) = outcomeMap f (execAdi ra imm s)
    rw [execAdi, execAdi, hf.reg_eq, hf.writeBack_comm s (hwrites (by simp [Instr.form]))]
  | add ra rb rc =>
    change execAdd ra rb rc (f s) = outcomeMap f (execAdd ra rb rc s)
    rw [execAdd, execAdd, hf.reg_eq, hf.reg_eq, hf.writeBack_comm s (hwrites (by simp [Instr.form]))]
  | sub ra rb rc =>
    change execSub ra rb rc (f s) = outcomeMap f (execSub ra rb rc s)
    rw [execSub, execSub, hf.reg_eq, hf.reg_eq, hf.writeBack_comm s (hwrites (by simp [Instr.form]))]
  | bit ra rb sel rc =>
    change execBit ra rb sel rc (f s) = outcomeMap f (execBit ra rb sel rc s)
    rw [execBit, execBit, hf.config_eq, hf.reg_eq, hf.reg_eq, hf.writeBack_comm s (hwrites (by simp [Instr.form]))]
  | rsh ra rb =>
    change execRsh ra rb (f s) = outcomeMap f (execRsh ra rb s)
    rw [execRsh, execRsh, hf.reg_eq, hf.writeBack_plain_comm]

end

/-! ## The flags (R33) -/

theorem transparent_setFlags (z c : Bool) : Transparent fun s => s.setFlags z c where
  config_eq _ := rfl
  reg_eq _ _ := rfl
  memRead_eq _ _ := rfl
  setReg_comm _ _ _ := rfl
  memWrite_comm _ _ _ := rfl
  jump_comm _ _ := rfl
  advance_comm _ := rfl
  latch_comm _ _ := rfl
  raise_comm _ _ := rfl
  halt_comm _ := rfl

theorem execCal_setFlags (addr : IAddr) (s : State) (z c : Bool) :
    execCal addr (s.setFlags z c) = outcomeMap (fun t => t.setFlags z c) (execCal addr s) := by
  rw [execCal_eq, execCal_eq, State.setFlags_config, State.setFlags_stack]
  split <;> rfl

theorem execRet_setFlags (s : State) (z c : Bool) :
    execRet (s.setFlags z c) = outcomeMap (fun t => t.setFlags z c) (execRet s) := by
  cases h : s.stack with
  | nil => rw [execRet_nil h, execRet_nil ((State.setFlags_stack s z c).trans h)]; rfl
  | cons v rest => rw [execRet_cons h, execRet_cons ((State.setFlags_stack s z c).trans h)]; rfl

/-- An instruction that neither writes nor reads the flags carries them along. -/
theorem exec_setFlags {i : Instr} (hwrites : i.form ∉ flagWriters) (hreads : i.form ≠ .brh) (s : State) (z c : Bool) :
    exec i (s.setFlags z c) = outcomeMap (fun t => t.setFlags z c) (exec i s) := by
  by_cases hcal : i.form = .cal
  · obtain ⟨addr, rfl⟩ := Instr.form_eq_cal hcal
    exact execCal_setFlags addr s z c
  by_cases hret : i.form = .ret
  · obtain rfl := Instr.form_eq_ret hret
    exact execRet_setFlags s z c
  exact (transparent_setFlags z c).exec_comm s hcal hret (absurd · hwrites) (absurd · hreads)

/-- A write-back with a flag pair forgets the flags before it. -/
theorem writeBack_setFlags (ra : Reg) (v : Byte) (p : Bool × Bool) (s : State) (z c : Bool) :
    writeBack ra ⟨v, some p⟩ (s.setFlags z c) = writeBack ra ⟨v, some p⟩ s := rfl

/-- A flag writer forms its result from the registers alone and forgets the flags before it. -/
theorem exec_flagWriter_setFlags {i : Instr} (hform : i.form ∈ flagWriters) (s : State) (z c : Bool) :
    exec i (s.setFlags z c) = exec i s := by
  cases i with
  | adi ra imm | add ra rb rc | sub ra rb rc | bit ra rb sel rc => exact writeBack_setFlags ra _ _ s z c
  | _ => simp [Instr.form] at hform

/-- Settles O24: the writers forget the old flags, the others keep them, and all but `brh` carry other flags along. -/
theorem flagsAreWrittenByFourAndReadByBrh : Obligations.FlagsAreWrittenByFourAndReadByBrh := by
  intro i s t z c hexec
  refine ⟨fun hform => (exec_flagWriter_setFlags hform s z c).trans hexec, (exec_cases hexec).sameFlags,
    fun hform => ?_⟩
  have hwrites : i.form ∉ flagWriters := fun hmem => hform (List.mem_append_left [Form.brh] hmem)
  have hreads : i.form ≠ .brh := fun hbrh => hform (by simp [hbrh])
  rw [exec_setFlags hwrites hreads, hexec, outcomeMap]

/-! ## The call stack (R35) -/

/-- `s` with the call stack `k`. -/
def State.withStack (s : State) (k : List IAddr) : State := { s with stack := k }

theorem transparent_withStack (k : List IAddr) : Transparent fun s => s.withStack k where
  config_eq _ := rfl
  reg_eq _ _ := rfl
  memRead_eq _ _ := rfl
  setReg_comm _ _ _ := rfl
  memWrite_comm _ _ _ := rfl
  jump_comm _ _ := rfl
  advance_comm _ := rfl
  latch_comm _ _ := rfl
  raise_comm _ _ := rfl
  halt_comm _ := rfl

/-- An instruction but `cal` and `ret` carries the stack along. -/
theorem exec_withStack {i : Instr} (hcal : i.form ≠ .cal) (hret : i.form ≠ .ret) (s : State) (k : List IAddr) :
    exec i (s.withStack k) = outcomeMap (fun t => t.withStack k) (exec i s) :=
  (transparent_withStack k).exec_comm s hcal hret (fun _ _ _ _ => rfl) fun _ => ⟨rfl, rfl⟩

/-- A `cal` that completes shows as a jump. -/
theorem execCal_snapshot {addr : IAddr} {s t : State} (h : execCal addr s = .next t)
    (hok : t.status.isError = false) : t.snapshot = (s.jump addr).snapshot := by
  rw [execCal_eq] at h
  split at h
  · obtain rfl := raiseError_next.mp h
    simp at hok
  · obtain rfl := complete_next.mp h
    rfl

/-- A `ret` that completes shows as a change of the pc. -/
theorem execRet_snapshot {s t : State} (h : execRet s = .next t) (hok : t.status.isError = false) :
    t.snapshot = { s.snapshot with pc := t.pc } := by
  cases hstack : s.stack with
  | nil =>
    rw [execRet_nil hstack] at h
    obtain rfl := raiseError_next.mp h
    simp at hok
  | cons v rest =>
    rw [execRet_cons hstack] at h
    obtain rfl := complete_next.mp h
    rfl

/-- Settles O30: the stack is carried along by all but `cal` and `ret`, whose snapshots do not hold what it held. -/
theorem stackIsHidden : Obligations.StackIsHidden := by
  refine ⟨fun s k => rfl, fun i s t u k ht hu => ⟨fun hret hcal => ?_, fun hokt hoku hcal => ?_,
    fun hokt hoku hret => ?_⟩⟩
  · have hcomm := exec_withStack hcal hret s k
    rw [ht] at hcomm
    exact Host.Outcome.next.inj (hu.symm.trans hcomm)
  · obtain ⟨addr, rfl⟩ := Instr.form_eq_cal hcal
    exact (execCal_snapshot hu hoku).trans (execCal_snapshot ht hokt).symm
  · obtain rfl := Instr.form_eq_ret hret
    rw [execRet_snapshot hu hoku, execRet_snapshot ht hokt]
    rfl

end Sys2Proof.Machine
end

section
/-! PROOF. The memory rules of 20_memory.md: the image file's byte order (R54, O7), the address unit (R58 to R60; O44,
O45), the out-of-range error (R60, O42) and a load after a store (R63, O43). -/

namespace Sys2Proof.Machine

/-! ## The byte order of an image file -/

theorem length_wordsOfBytes : ∀ bytes : List Byte, (wordsOfBytes bytes).length = bytes.length / 2
  | [] => rfl
  | [_] => by simp [wordsOfBytes]
  | hi :: lo :: rest => by
    have ih := length_wordsOfBytes rest
    simp only [wordsOfBytes, List.length_cons, ih]
    omega

/-- Word `k` is made of the bytes at `2 * k` and `2 * k + 1`, the more significant first (R54). -/
theorem getElem?_wordsOfBytes {bytes : List Byte} {k : Nat} {hi lo : Byte} (hhi : bytes[2 * k]? = some hi)
    (hlo : bytes[2 * k + 1]? = some lo) : (wordsOfBytes bytes)[k]? = some (wordOfBytes hi lo) := by
  induction k generalizing bytes with
  | zero =>
    match bytes with
    | [] | [_] => simp at hlo
    | b :: b' :: rest =>
      obtain ⟨rfl, rfl⟩ : b = hi ∧ b' = lo := by simpa using And.intro hhi hlo
      rfl
  | succ k ih =>
    match bytes with
    | [] | [_] => simp at hlo
    | b :: b' :: rest => exact ih hhi hlo

/-- Settles O7, by induction on the bytes for the number of words and on `k` for word `k`. -/
theorem imageFileIsBigEndian : Obligations.ImageFileIsBigEndian :=
  fun bytes => ⟨length_wordsOfBytes bytes, fun _ _ _ hhi hlo => getElem?_wordsOfBytes hhi hlo⟩

/-! ## The address unit -/

/-- The raw address is at least 0 - 32 and at most 255 + 31 (R58). -/
theorem rawEa_bounds (b : Byte) (o : Off) : -32 ≤ rawEa b o ∧ rawEa b o ≤ 286 := by
  have hbase := u8_lt b
  have hoff := s6_bounds o
  simp only [rawEa]
  omega

/-- The truncation of a raw address is the 8-bit sum of the base and the sign-extended offset (R59). -/
theorem trunc8_rawEa (b : Byte) (o : Off) : trunc8 (rawEa b o) = b + o.signExtend 8 := by
  have hbase : trunc8 (u8 b) = b := by simp [trunc8, u8]
  have hoff : trunc8 (s6 o) = o.signExtend 8 := rfl
  calc trunc8 (rawEa b o) = trunc8 (u8 b) + trunc8 (s6 o) := BitVec.ofInt_add _ _
    _ = b + o.signExtend 8 := by rw [hbase, hoff]

/-- The two readings of a byte differ by 0 or 256 (R11). -/
theorem s8_emod (b : Byte) : s8 b % 256 = u8 b % 256 := by
  rw [s8, u8, BitVec.toInt_eq_toNat_bmod]
  exact Int.bmod_emod

/-- A raw address in the data memory is not changed by its truncation. -/
theorem trunc8_toNat_of_inRange {raw : Int} (hlow : 0 ≤ raw) (hhigh : raw ≤ 255) :
    ((trunc8 raw).toNat : Int) = raw := by
  rw [trunc8_toNat]
  omega

/-- The accesses that the fault policy refuses (R60). -/
theorem effectiveAddress_fault_eq_none {b : Byte} {o : Off} :
    effectiveAddress .fault b o = none ↔ rawEa b o < 0 ∨ 255 < rawEa b o := by
  rw [effectiveAddress_fault, ite_eq_right_iff]
  simp only [reduceCtorEq, imp_false]
  omega

/-- Settles O44: an 8-bit adder computes modulo 256, where the two readings of the base agree. -/
theorem wrappedAddressIsAByteSum : Obligations.WrappedAddressIsAByteSum := by
  refine fun base o => ⟨by rw [effectiveAddress_wrap, trunc8_rawEa], (trunc8_eq_iff _ _).mpr ?_⟩
  rw [Int.add_emod, s8_emod, ← Int.add_emod]

/-- Settles O45: an address given is the truncation of a raw address that is in range. -/
theorem faultPolicyAddressIsExact : Obligations.FaultPolicyAddressIsExact := by
  intro base o
  obtain ⟨hlow, hhigh⟩ := rawEa_bounds base o
  refine ⟨hlow, hhigh, effectiveAddress_fault_eq_none, fun a haddr => ?_⟩
  have hin : ¬ (rawEa base o < 0 ∨ 255 < rawEa base o) := by
    rw [← effectiveAddress_fault_eq_none, haddr]
    exact Option.some_ne_none a
  rw [effectiveAddress_eq haddr]
  exact trunc8_toNat_of_inRange (by omega) (by omega)

/-! ## Loads and stores -/

/-- Settles O42: no address is given, so both accesses raise MEM_OUT_OF_RANGE. -/
theorem outOfRangeAccessTraps : Obligations.OutOfRangeAccessTraps := by
  intro ra rb o s hpolicy hout
  have haddr : s.address rb o = none := by
    rw [State.address, hpolicy]
    exact effectiveAddress_fault_eq_none.mpr hout
  exact ⟨execMld_none haddr, execMst_none haddr⟩

/-- An `mst` that completes had an address and stored its data register there (R129). -/
theorem execMst_ok {ra rb : Reg} {o : Off} {s t : State} (h : execMst ra rb o s = .next t) (hok : t.status = .ok) :
    ∃ a, s.address rb o = some a ∧ t = (s.memWrite a (s.reg ra)).advance.latch .ok := by
  cases haddr : s.address rb o with
  | none =>
    rw [execMst_none haddr, raiseError_next] at h
    subst h
    cases hok
  | some a =>
    rw [execMst_some haddr, complete_next] at h
    exact ⟨a, rfl, h⟩

/-- Settles O43: the load reads the address the store wrote. -/
theorem loadAfterStoreGivesTheByte : Obligations.LoadAfterStoreGivesTheByte := by
  intro ra rb rd rb' o o' s t hstore hok hsame
  obtain ⟨a, haddr, ht⟩ := execMst_ok hstore hok
  have hread : t.memRead a = s.reg ra := by simp [ht]
  refine ⟨_, (execMld_some (hsame.trans haddr)).trans (writeBack_plain rd _ t), rfl, ?_⟩
  rw [hread]
  by_cases hrd : rd = .r0 <;> simp [hrd]

end Sys2Proof.Machine
end

section
/-! PROOF. Instruction words (R70 to R90): what an instruction's word is made of, and what the decoder reads from a word,
under any legal tables (O1, O2, O3) and under the decided ones (O4, O6, O58). -/

namespace Sys2Proof

/-! ## An instruction's word as a list of placed fields -/

/-- A field with its place in the word and its value. -/
structure PlacedField where
  lo : Nat
  width : Nat
  value : BitVec width

/-- The place of a field, as `FieldLayout.used` lists it. -/
def PlacedField.span (p : PlacedField) : Nat × Nat := (p.lo, p.width)

/-- Fields lie apart: one ends before the other begins, as `FieldLayout.wf` asks. -/
def spansApart (p q : Nat × Nat) : Prop := p.1 + p.2 ≤ q.1 ∨ q.1 + q.2 ≤ p.1

/-- The operand fields of an instruction, in the order of its format's (R72 to R79). -/
def Instr.placedOperands (l : FieldLayout) : Instr → List PlacedField
  | .nop | .hlt | .ret => []
  | .jmp a | .cal a => [⟨l.addr, 10, a⟩]
  | .brh c a => [⟨l.cond, 2, c.toBits⟩, ⟨l.addr, 10, a⟩]
  | .pld ra v | .pst ra v | .ldi ra v | .adi ra v => [⟨l.ra, 3, ra.toBits⟩, ⟨l.imm, 8, v⟩]
  | .mld ra rb o | .mst ra rb o => [⟨l.ra, 3, ra.toBits⟩, ⟨l.rb, 3, rb.toBits⟩, ⟨l.off, 6, o⟩]
  | .add ra rb rc | .sub ra rb rc => [⟨l.ra, 3, ra.toBits⟩, ⟨l.rb, 3, rb.toBits⟩, ⟨l.rc, 3, rc.toBits⟩]
  | .bit ra rb sel rc =>
    [⟨l.ra, 3, ra.toBits⟩, ⟨l.rb, 3, rb.toBits⟩, ⟨l.sel, 3, sel.toBits⟩, ⟨l.rc, 3, rc.toBits⟩]
  | .rsh ra rb => [⟨l.ra, 3, ra.toBits⟩, ⟨l.rb, 3, rb.toBits⟩]

/-- All fields of an instruction, the opcode first. -/
def Instr.placedFields (t : EncodingTables) (i : Instr) : List PlacedField :=
  ⟨t.layout.op, 4, i.form.opcodeIn t.opcodeMap⟩ :: i.placedOperands t.layout

/-- The word of a list of fields: each at its place, every other bit zero. -/
def wordOfFields (ps : List PlacedField) : Word := ps.foldr (fun p w => placeField p.lo p.value ||| w) 0

@[simp] theorem wordOfFields_nil : wordOfFields [] = 0 := rfl
@[simp] theorem wordOfFields_cons (p : PlacedField) (ps : List PlacedField) :
    wordOfFields (p :: ps) = placeField p.lo p.value ||| wordOfFields ps := rfl

theorem operandWord_eq (l : FieldLayout) (i : Instr) : i.operandWord l = wordOfFields (i.placedOperands l) := by
  cases i <;> simp [Instr.operandWord, Instr.placedOperands, BitVec.or_assoc]

/-- The encoder's word is the word of the instruction's fields. -/
theorem encodeWith_eq (t : EncodingTables) (i : Instr) : encodeWith t i = wordOfFields (i.placedFields t) := by
  rw [encodeWith, operandWord_eq, Instr.placedFields, wordOfFields_cons]

/-- An instruction's fields stand where its format has them (R72 to R79). -/
theorem placedFields_spans (t : EncodingTables) (i : Instr) :
    (i.placedFields t).map PlacedField.span = t.layout.used i.form.format := by
  cases i <;> rfl

/-! ## Reading a field back -/

/-- A field's place holds nothing of a field that lies apart from it. -/
theorem fieldAt_placeField_apart {p q : PlacedField} (h : spansApart p.span q.span) :
    fieldAt p.lo p.width (placeField q.lo q.value) = 0 :=
  fieldAt_placeField_other q.value h

theorem fieldAt_wordOfFields_apart {p : PlacedField} {ps : List PlacedField}
    (h : ∀ q ∈ ps, spansApart p.span q.span) : fieldAt p.lo p.width (wordOfFields ps) = 0 := by
  induction ps with
  | nil => exact fieldAt_zero _ _
  | cons q qs ih =>
    obtain ⟨hq, hqs⟩ := List.forall_mem_cons.mp h
    rw [wordOfFields_cons, fieldAt_or, fieldAt_placeField_apart hq, ih hqs]
    exact BitVec.or_zero

/-- Fields that lie inside the word and apart are each read back. -/
theorem fieldAt_wordOfFields {ps : List PlacedField} (hin : ∀ p ∈ ps, p.lo + p.width ≤ 16)
    (hapart : ps.Pairwise fun p q => spansApart p.span q.span) :
    ∀ p ∈ ps, fieldAt p.lo p.width (wordOfFields ps) = p.value := by
  induction ps with
  | nil => simp
  | cons q qs ih =>
    obtain ⟨hq, hqs⟩ := List.forall_mem_cons.mp hin
    obtain ⟨hqapart, hqsapart⟩ := List.pairwise_cons.mp hapart
    refine List.forall_mem_cons.mpr ⟨?_, fun p hp => ?_⟩
    · rw [wordOfFields_cons, fieldAt_or, fieldAt_placeField_same q.value hq, fieldAt_wordOfFields_apart hqapart]
      exact BitVec.or_zero
    · rw [wordOfFields_cons, fieldAt_or, fieldAt_placeField_apart (hqapart p hp).symm, ih hqs hqsapart p hp]
      exact BitVec.zero_or

/-- Under legal tables each field of an instruction is read back from its word. -/
theorem fieldAt_encodeWith {t : EncodingTables} (h : t.wf = true) (i : Instr) :
    ∀ p ∈ i.placedFields t, fieldAt p.lo p.width (encodeWith t i) = p.value := by
  obtain ⟨-, hlayout⟩ := (EncodingTables.wf_iff t).mp h
  obtain ⟨hin, hapart⟩ := FieldLayout.used_of_wf hlayout i.form.format
  rw [← placedFields_spans, List.forall_mem_map] at hin
  rw [← placedFields_spans, List.pairwise_map] at hapart
  rw [encodeWith_eq]
  exact fieldAt_wordOfFields hin hapart

/-! ## Decoding an instruction's word (O1) -/

/-- Where a word's operand fields are those of an instruction, its form takes that instruction's operands from them. -/
theorem form_instr_of_fields {l : FieldLayout} {i : Instr} {w : Word}
    (h : ∀ p ∈ i.placedOperands l, fieldAt p.lo p.width w = p.value) : i.form.instr (decodeFields l w) = i := by
  cases i <;> simp_all [Instr.placedOperands, Instr.form, Form.instr, decodeFields]

theorem decodeWith_encodeWith {t : EncodingTables} (h : t.wf = true) (i : Instr) :
    decodeWith t (encodeWith t i) = .ok i := by
  obtain ⟨hmap, -⟩ := (EncodingTables.wf_iff t).mp h
  obtain ⟨hop, hoperands⟩ := List.forall_mem_cons.mp (fieldAt_encodeWith h i)
  have hform : t.opcodeMap[(fieldAt t.layout.op 4 (encodeWith t i)).toNat]? = some i.form := by
    rw [hop]
    exact opcodeMap_opcodeIn hmap i.form
  rw [decodeWith_some hform, form_instr_of_fields hoperands]

/-- The decided tables are legal (D1, D2). -/
theorem standard_wf : EncodingTables.standard.wf = true := by decide

/-- Settles O1: each field is read back from its own place, and the opcode map gives the form back. -/
theorem decodeInvertsEncode : Obligations.DecodeInvertsEncode :=
  ⟨decodeWith_encodeWith standard_wf, fun _ h => decodeWith_encodeWith h⟩

/-! ## Decoding any word (O2) -/

/-- What a word decodes to: the form at its opcode, with the operands that its fields hold. -/
theorem decodeWith_eq_ok {t : EncodingTables} {w : Word} {i : Instr} (h : decodeWith t w = .ok i) :
    t.opcodeMap[(fieldAt t.layout.op 4 w).toNat]? = some i.form ∧ i.form.instr (decodeFields t.layout w) = i := by
  cases hf : t.opcodeMap[(fieldAt t.layout.op 4 w).toNat]? with
  | none =>
    rw [decodeWith_none hf] at h
    cases h
  | some f =>
    rw [decodeWith_some hf] at h
    obtain rfl := Except.ok.inj h
    rw [Form.instr_form]
    exact ⟨rfl, rfl⟩

theorem exists_decodeWith {t : EncodingTables} (h : t.wf = true) (w : Word) :
    ∃ i, decodeWith t w = .ok i ∧ t.opcodeMap[(fieldAt 12 4 w).toNat]? = some i.form := by
  obtain ⟨hmap, hlayout⟩ := (EncodingTables.wf_iff t).mp h
  obtain ⟨f, hf, -⟩ := opcodeMap_some hmap (fieldAt 12 4 w)
  have hdecode := decodeWith_some (t := t) (w := w) (by rwa [FieldLayout.op_of_wf hlayout])
  exact ⟨_, hdecode, by rw [Form.instr_form, hf]⟩

/-- Settles O2: a legal opcode map has a form at every number; the decided one is the Glossary's list. -/
theorem everyWordDecodesByOpcode : Obligations.EveryWordDecodesByOpcode :=
  ⟨exists_decodeWith standard_wf, fun _ h => exists_decodeWith h⟩

/-! ## Ignored bits (O3) -/

/-- The fields that a word holds at the given places. -/
def fieldsAt (spans : List (Nat × Nat)) (w : Word) : List PlacedField :=
  spans.map fun p => ⟨p.1, p.2, fieldAt p.1 p.2 w⟩

/-- The fields that a word holds make up that word under the fields' masks. -/
theorem wordOfFields_fieldsAt (spans : List (Nat × Nat)) (w : Word) :
    wordOfFields (fieldsAt spans w) = w &&& spans.foldr (fun p m => fieldMask p.1 p.2 ||| m) 0 := by
  induction spans with
  | nil => exact BitVec.and_zero.symm
  | cons p ps ih =>
    rw [List.foldr_cons, BitVec.and_or_distrib_left, ← placeField_fieldAt, ← ih]
    rfl

/-- The opcode and the operands read from a word are the fields that the word holds at the format's places. -/
theorem op_cons_placedOperands_instr (l : FieldLayout) (f : Form) (w : Word) :
    (⟨l.op, 4, fieldAt l.op 4 w⟩ :: (f.instr (decodeFields l w)).placedOperands l : List PlacedField) =
      fieldsAt (l.used f.format) w := by
  cases f <;> simp [Form.instr, decodeFields, Instr.placedOperands, Form.format, FieldLayout.used, fieldsAt]

/-- The number of the form that a legal opcode map has at a number is that number. -/
theorem opcodeIn_of_getElem? {m : OpcodeMap} (h : opcodeMapOk m = true) {v : BitVec 4} {f : Form}
    (hf : m[v.toNat]? = some f) : f.opcodeIn m = v := by
  obtain ⟨g, hg, hnumber⟩ := opcodeMap_some h v
  obtain rfl : f = g := Option.some.inj (hf.symm.trans hg)
  exact hnumber

/-- The encoder clears the ignored bits of a word that was decoded (R88). -/
theorem encodeWith_of_decodeWith {t : EncodingTables} (h : t.wf = true) {w : Word} {i : Instr}
    (hi : decodeWith t w = .ok i) : encodeWith t i = w &&& i.form.format.usedBits t.layout := by
  obtain ⟨hmap, -⟩ := (EncodingTables.wf_iff t).mp h
  obtain ⟨hform, hinstr⟩ := decodeWith_eq_ok hi
  have hfields : i.placedFields t = fieldsAt (t.layout.used i.form.format) w := by
    rw [← op_cons_placedOperands_instr, hinstr, ← opcodeIn_of_getElem? hmap hform, Instr.placedFields]
  rw [encodeWith_eq, hfields, wordOfFields_fieldsAt, Format.usedBits]

/-- Every format uses the opcode field (R72 to R79). -/
theorem usedBits_and_op (l : FieldLayout) (f : Format) : f.usedBits l &&& fieldMask l.op 4 = fieldMask l.op 4 := by
  obtain ⟨rest, hused⟩ : ∃ rest, f.usedBits l = fieldMask l.op 4 ||| rest := by cases f <;> exact ⟨_, rfl⟩
  ext k hk
  cases hbit : (fieldMask l.op 4)[k] <;> simp [hused, hbit]

/-- Words that agree on the bits a format uses have the same opcode. -/
theorem opcode_eq_of_used {l : FieldLayout} (h : l.wf = true) {f : Format} {w w' : Word}
    (hw : w' &&& f.usedBits l = w &&& f.usedBits l) : fieldAt l.op 4 w' = fieldAt l.op 4 w := by
  apply fieldAt_congr (by rw [FieldLayout.op_of_wf h])
  calc w' &&& fieldMask l.op 4 = (w' &&& f.usedBits l) &&& fieldMask l.op 4 := by
        rw [BitVec.and_assoc, usedBits_and_op]
    _ = w &&& fieldMask l.op 4 := by rw [hw, BitVec.and_assoc, usedBits_and_op]

/-- Under legal tables different instructions have different words. -/
theorem encodeWith_injective {t : EncodingTables} (h : t.wf = true) : Function.Injective (encodeWith t) := by
  intro i j hij
  have hi := decodeWith_encodeWith h i
  rw [hij, decodeWith_encodeWith h j] at hi
  exact (Except.ok.inj hi).symm

/-- A word that agrees with a decoded one on the used bits decodes to the same instruction (R88): it decodes to one of
the same form, hence with the same encoding. -/
theorem decodeWith_of_used {t : EncodingTables} (h : t.wf = true) {w w' : Word} {i : Instr}
    (hi : decodeWith t w = .ok i)
    (hw : w' &&& i.form.format.usedBits t.layout = w &&& i.form.format.usedBits t.layout) :
    decodeWith t w' = .ok i := by
  obtain ⟨-, hlayout⟩ := (EncodingTables.wf_iff t).mp h
  obtain ⟨j, hj, -⟩ := exists_decodeWith h w'
  obtain ⟨hjform, -⟩ := decodeWith_eq_ok hj
  obtain ⟨hiform, -⟩ := decodeWith_eq_ok hi
  have hform : j.form = i.form := by
    apply Option.some.inj
    rw [← hjform, opcode_eq_of_used hlayout hw, hiform]
  have hword : encodeWith t j = encodeWith t i := by
    rw [encodeWith_of_decodeWith h hj, encodeWith_of_decodeWith h hi, hform, hw]
  rw [hj, encodeWith_injective h hword]

/-- Settles O3: the encoder writes the used bits of the word, and they fix the instruction. -/
theorem ignoredBitsDoNotMatter : Obligations.IgnoredBitsDoNotMatter :=
  ⟨standard_wf, fun _ h _ _ hi => ⟨encodeWith_of_decodeWith h hi, fun _ hw => decodeWith_of_used h hi hw⟩⟩

/-! ## The words of the decided encoding (O4, O6, O58) -/

/-- A placed concatenation is its two parts placed. -/
theorem placeField_append (lo : Nat) {n m : Nat} (x : BitVec n) (y : BitVec m) :
    placeField lo (x ++ y) = placeField (lo + m) x ||| placeField lo y := by
  apply BitVec.eq_of_getLsbD_eq
  intro k hk
  simp only [placeField, BitVec.getLsbD_or, BitVec.getLsbD_shiftLeft, BitVec.getLsbD_setWidth, BitVec.getLsbD_append,
    hk, decide_true, Bool.true_and]
  by_cases hlo : k < lo
  · simp [hlo, show k < lo + m by omega]
  · by_cases hm : k - lo < m
    · simp [hlo, hm, show k < lo + m by omega]
    · have hy : y.getLsbD (k - lo) = false := BitVec.getLsbD_of_ge y _ (by omega)
      simp [hlo, hm, hy, show ¬ k < lo + m by omega, show k - lo < 16 by omega, show k - (lo + m) < 16 by omega,
        Nat.sub_sub]

@[simp] theorem placeField_zero (lo n : Nat) : placeField lo (0#n) = 0 := by
  simp [placeField]

/-- A whole word is the field at bit 0 that fills it. -/
theorem placeField_word (w : Word) : placeField 0 w = w := by
  rw [placeField, BitVec.shiftLeft_zero, BitVec.setWidth_eq]

/-- The decided word of an instruction is any word whose parts are the instruction's fields. -/
theorem encodeWord_eq {i : Instr} {w : Word} (h : placeField 0 w = wordOfFields (i.placedFields .standard)) :
    encodeWord i = w := by
  rw [encodeWord, encodeWith_eq, ← h, placeField_word]

/-- Settles O4: each concatenation, cut into its parts, is the instruction's fields at the places of the decided layout
(D2), the opcode at its number in the decided map (D1). -/
theorem wordsOfTheFormats : Obligations.WordsOfTheFormats := by
  refine ⟨?_, ?_, ?_, fun a => ⟨?_, ?_⟩, fun k a => ?_, fun ra v => ⟨?_, ?_, ?_, ?_⟩, fun ra rb o => ⟨?_, ?_⟩,
    fun ra rb rc => ⟨?_, ?_⟩, fun ra rb f rc => ?_, fun ra rb => ?_⟩ <;>
  · apply encodeWord_eq
    simp only [placeField_append, placeField_zero, Instr.placedFields, Instr.placedOperands, wordOfFields_cons,
      wordOfFields_nil, BitVec.or_assoc, BitVec.ofNat_eq_ofNat, BitVec.or_zero]
    rfl

/-- Settles O6: a register's code names it again, and the codes are the listed ones. -/
theorem operandFieldCodes : Obligations.OperandFieldCodes :=
  ⟨Reg.ofBits_toBits, by decide, by decide, by decide⟩

/-- Settles O58: the masks of the decided layout, format by format. -/
theorem usedBitsOfTheDecidedLayout : Obligations.UsedBitsOfTheDecidedLayout := by
  unfold Obligations.UsedBitsOfTheDecidedLayout
  decide

end Sys2Proof
end

section
/-! PROOF. The assembler and its files (R92 to R106): the image file (O8), immediates (O55), pseudo-instructions (O56), and
what a run gives, prints and writes (O57, O60). -/

namespace Sys2Proof.Machine

/-! ## The image file (O8) -/

/-- A word is read back from its two bytes (R54). -/
theorem wordOfBytes_bytesOfWord (w : Word) : wordOfBytes (w.extractLsb' 8 8) (w.extractLsb' 0 8) = w := by
  rw [wordOfBytes, BitVec.extractLsb'_append_extractLsb'_eq_extractLsb' (show 8 = 0 + 8 from rfl)]
  exact BitVec.extractLsb'_eq_self

/-- The file of an image begins with the first word's two bytes (R54). -/
theorem fileOfWords_cons (w : Word) (ws : List Word) :
    fileOfWords (w :: ws) = w.extractLsb' 8 8 :: w.extractLsb' 0 8 :: fileOfWords ws := rfl

theorem length_fileOfWords (words : List Word) : (fileOfWords words).length = 2 * words.length := by
  induction words with
  | nil => rfl
  | cons w ws ih =>
    simp only [fileOfWords_cons, List.length_cons, ih]
    omega

theorem wordsOfBytes_fileOfWords (words : List Word) : wordsOfBytes (fileOfWords words) = words := by
  induction words with
  | nil => rfl
  | cons w ws ih =>
    rw [fileOfWords_cons, wordsOfBytes, wordOfBytes_bytesOfWord, ih]

/-- The files that are refused (D23). -/
theorem wordsOfFile_eq_none {bytes : List Byte} :
    wordsOfFile bytes = none ↔ bytes.length % 2 = 1 ∨ 2048 < bytes.length := by
  rw [wordsOfFile, ite_eq_right_iff]
  simp only [imageMax, reduceCtorEq, imp_false]
  omega

/-- Settles O8: an image's file has an even and small enough size, and each word is read back from its bytes. -/
theorem imageFileRoundTrip : Obligations.ImageFileRoundTrip := by
  refine ⟨fun words hlen => ⟨length_fileOfWords words, ?_⟩, fun bytes hbad => wordsOfFile_eq_none.mpr hbad⟩
  have hsize := length_fileOfWords words
  rw [wordsOfFile, if_pos (by simp only [imageMax]; omega), wordsOfBytes_fileOfWords]

/-! ## Immediates (O55) -/

theorem immediateOk_iff {v : Int} : immediateOk v = true ↔ -128 ≤ v ∧ v ≤ 255 := by
  simp [immediateOk]

/-- A token that is no literal is malformed, whatever its range. -/
theorem rangedLiteral_none {ok : Int → Bool} {t : Token} (h : parseLiteral t = none) :
    rangedLiteral ok t = .error ⟨.malformedOperand, t⟩ := by
  simp [rangedLiteral, h]

theorem rangedLiteral_some {ok : Int → Bool} {t : Token} {v : Int} (h : parseLiteral t = some v) :
    rangedLiteral ok t = if ok v then .ok v else .error ⟨.outOfRange, t⟩ := by
  simp [rangedLiteral, h]

/-- Settles O55: the token's literal is missing, out of range, or in range and truncated to a byte. -/
theorem immediatesAreMasked : Obligations.ImmediatesAreMasked := by
  refine fun t => ⟨fun hnone => ?_, fun v hsome => ⟨fun hout => ?_, fun hlow hhigh => ⟨trunc8 v, ?_, trunc8_toNat v⟩⟩⟩
  · rw [immOperand, rangedLiteral_none hnone]
    rfl
  · have hbad : ¬ immediateOk v = true := by rw [immediateOk_iff]; omega
    rw [immOperand, rangedLiteral_some hsome, if_neg hbad]
    rfl
  · rw [immOperand, rangedLiteral_some hsome, if_pos (immediateOk_iff.mpr ⟨hlow, hhigh⟩)]
    rfl

/-! ## Pseudo-instructions (O56) -/

/-- A mnemonic that is in the pseudo-instruction table alone, with as many operands as its entry there has, is rewritten
by that entry (R92). -/
theorem resolveForm_pseudo {m : Token} {ops args : List Token} {f : Form} {as : List PseudoArg}
    (hform : formNames.lookup m = none) (hpseudo : pseudoTable.lookup m = some ⟨ops.length, f, as⟩)
    (hargs : as.map (PseudoArg.expand ops) = args) : resolveForm m ops = .ok (f, args) := by
  simp [resolveForm, hform, hpseudo, hargs]

/-- Settles O56: each mnemonic is looked up in the two tables and its entry's operands are filled in. -/
theorem pseudoInstructionsExpand : Obligations.PseudoInstructionsExpand := by
  intro a b c
  refine ⟨?_, ?_, ?_, ?_, ?_, ?_, ?_, ?_, ?_, ?_, ?_, ?_, ?_, ?_⟩ <;>
    exact resolveForm_pseudo rfl rfl rfl

/-! ## What a run gives (O57) -/

/-- What pass 2 answers for a line and those after it: a line without an instruction gives nothing, and one with an
instruction gives its word, at an address below 1024 (R103). -/
theorem passTwo_cons_ok {t : EncodingTables} {labels : LabelTable} {addr : Nat} {l : SourceLine} {ls : List SourceLine}
    {out : List (Word × LineEntry)} (h : passTwo t labels addr (l :: ls) = .ok out) :
    passTwo t labels addr ls = .ok out ∨
      ∃ w rest, addr < imageMax ∧ passTwo t labels (addr + 1) ls = .ok rest ∧ out = (w, ⟨l.number, addr⟩) :: rest := by
  rw [passTwo] at h
  split at h
  case isTrue => exact .inl h
  case isFalse =>
    split at h
    case isTrue => cases h
    case isFalse hroom =>
      split at h
      case h_1 => cases h
      case h_2 i _ =>
        split at h
        case h_1 => cases h
        case h_2 rest hrest => exact .inr ⟨encodeWith t i, rest, by omega, hrest, (Except.ok.inj h).symm⟩

/-- The words of pass 2 fit in the image, and their debug entries are at consecutive addresses (R103, R106). -/
theorem passTwo_ok {t : EncodingTables} {labels : LabelTable} {addr : Nat} {ls : List SourceLine}
    {out : List (Word × LineEntry)} (h : passTwo t labels addr ls = .ok out) (haddr : addr ≤ imageMax) :
    addr + out.length ≤ imageMax ∧ (out.map Prod.snd).map LineEntry.address = List.range' addr out.length := by
  induction ls generalizing addr out with
  | nil =>
    obtain rfl := Except.ok.inj h
    exact ⟨haddr, rfl⟩
  | cons l ls ih =>
    obtain hblank | ⟨w, rest, hroom, hrest, rfl⟩ := passTwo_cons_ok h
    · exact ih hblank haddr
    · obtain ⟨hlen, haddrs⟩ := ih hrest hroom
      refine ⟨by simp only [List.length_cons]; omega, ?_⟩
      simp only [List.map_cons, List.length_cons, List.range'_succ, haddrs]

/-- What a successful assembly gives: the output of pass 2 over the source's lines. -/
theorem assemble_ok {t : EncodingTables} {path source : String} {a : Assembly} (h : assemble t path source = .ok a) :
    ∃ labels out, passTwo t labels 0 (readLines 1 (splitAtChar '\n' source.toList)) = .ok out ∧
      a.words = out.map Prod.fst ∧ a.debugMap.instructions = out.map Prod.snd := by
  simp only [assemble] at h
  split at h
  case h_1 => cases h
  case h_2 labels _ =>
    split at h
    case h_1 => cases h
    case h_2 out hout =>
      obtain rfl := Except.ok.inj h
      exact ⟨labels, out, hout, rfl, rfl⟩

/-- Settles O57, from what pass 2 gives when it starts at address 0. -/
theorem assembledImagesFit : Obligations.AssembledImagesFit := by
  intro t path source a h
  obtain ⟨labels, out, hout, hwords, hlines⟩ := assemble_ok h
  obtain ⟨hlen, haddrs⟩ := passTwo_ok hout (Nat.zero_le imageMax)
  rw [Nat.zero_add] at hlen
  rw [hwords, hlines, List.length_map, haddrs, List.range_eq_range']
  exact ⟨hlen, rfl⟩

/-! ## What a run prints and writes (O60) -/

/-- The line of a failed assembly's error is one of the source's, counted from 1 (D18). -/
theorem assemble_error_line {t : EncodingTables} {path source : String} {r : AsmReport}
    (h : assemble t path source = .error r) :
    1 ≤ r.failure.line ∧ r.failure.line ≤ (splitAtChar '\n' source.toList).length := by
  obtain ⟨l, hl, hline⟩ : ∃ l ∈ readLines 1 (splitAtChar '\n' source.toList), r.failure.line = l.number := by
    obtain ⟨-, hone | ⟨labels, -, htwo⟩⟩ := assemble_error h
    · exact passOne_line hone
    · exact passTwo_line htwo
  have hnumber := readLines_number hl
  omega

/-- The message of an operand error names the token (R104). -/
theorem AsmReport.message_of_operand {source : String} {r : AsmReport} (h : r.failure.fault.error.ofOperand = true) :
    ∃ before after, r.message source = before ++ String.ofList r.failure.fault.token ++ after := by
  rw [AsmReport.message, if_pos h]
  exact ⟨_, _, rfl⟩

/-- Settles O60, from what a run leaves in each case and where its error lies. -/
theorem assemblerRunsPrintOrWrite : Obligations.AssemblerRunsPrintOrWrite := by
  refine fun t debug path source => ⟨fun r h => ?_, fun a h => ⟨_, runAssembler_ok h⟩⟩
  obtain ⟨hfirst, hlast⟩ := assemble_error_line h
  obtain ⟨rfl, -⟩ := assemble_error h
  exact ⟨hfirst, hlast, r.message source, runAssembler_error h, AsmReport.message_of_operand⟩

end Sys2Proof.Machine
end

section
/-! PROOF. The step cycle (R110): a step runs the instruction it fetches (O15, O16), and every step ends with a status
and its message (O17). -/

namespace Sys2Proof.Machine

/-! ## The instruction that a step runs -/

/-- Settles O15: the reached instruction is the one that passes the halted check, the fetch and the decode. -/
theorem stepRunsTheDecodedInstruction : Obligations.StepRunsTheDecodedInstruction :=
  fun _ _ hreach => step_of_reaches hreach

/-- A running core runs the instruction that its fetched word decodes to. -/
theorem step_of_fetch {s : State} {w : Word} {i : Instr} (hrun : s.halted = false) (hfetch : s.fetch = some w)
    (hdec : s.decode w = .ok i) : step s = exec i s := by
  simp [step, cycle, hrun, hfetch, hdec]

/-- All 16 bits of a word are placed. -/
theorem withFetchWord_toNat (s : State) (w : Word) : s.withFetchWord 16 w.toNat = s.placeWord w := by
  rw [State.withFetchWord, Nat.mod_eq_of_lt w.isLt, BitVec.ofNat_toNat, BitVec.setWidth_eq]

/-- Settles O16: the placed word is fetched, and under legal tables it decodes to its instruction. -/
theorem placedInstructionRunsNext : Obligations.PlacedInstructionRunsNext := by
  intro s i hwf
  obtain ⟨-, htables⟩ := (Config.wf_iff s.config).mp hwf
  rw [withFetchWord_toNat]
  exact step_of_fetch (State.placeWord_halted s _) (fetch_placeWord s _) (decodeWith_encodeWith htables i)

/-! ## Every step answers a next state -/

theorem execCal_total (addr : IAddr) (s : State) : ∃ t, execCal addr s = .next t := by
  rw [execCal_eq]
  split <;> exact ⟨_, rfl⟩

theorem execRet_total (s : State) : ∃ t, execRet s = .next t := by
  cases hstack : s.stack with
  | nil => exact ⟨_, execRet_nil hstack⟩
  | cons v rest => exact ⟨_, execRet_cons hstack⟩

theorem execMld_total (ra rb : Reg) (off : Off) (s : State) : ∃ t, execMld ra rb off s = .next t := by
  cases haddr : s.address rb off with
  | none => exact ⟨_, execMld_none haddr⟩
  | some a => exact ⟨_, execMld_some haddr⟩

theorem execMst_total (ra rb : Reg) (off : Off) (s : State) : ∃ t, execMst ra rb off s = .next t := by
  cases haddr : s.address rb off with
  | none => exact ⟨_, execMst_none haddr⟩
  | some a => exact ⟨_, execMst_some haddr⟩

/-- Every instruction answers a next state: none is refused or stops the machine. -/
theorem exec_total (i : Instr) (s : State) : ∃ t, exec i s = .next t := by
  cases i with
  | cal addr => exact execCal_total addr s
  | ret => exact execRet_total s
  | mld ra rb off => exact execMld_total ra rb off s
  | mst ra rb off => exact execMst_total ra rb off s
  | _ => exact ⟨_, rfl⟩

theorem step_total (s : State) : ∃ t, step s = .next t := by
  rw [step_eq]
  split
  · exact ⟨_, rfl⟩
  · split
    · exact ⟨_, rfl⟩
    · split
      · exact ⟨_, rfl⟩
      · exact exec_total _ s

/-! ## The status of a step and its message -/

/-- An instruction ends with OK, with HALTED or in an error (R150). -/
theorem ExecCase.status {i : Instr} {s t : State} (h : ExecCase i s t) :
    t.status = .ok ∨ t.status = .halted ∨ ∃ e, t = s.raise e := by
  cases h with
  | raised e _ => exact .inr (.inr ⟨e, rfl⟩)
  | stopped _ => exact .inr (.inl rfl)
  | wrote ra w t hwb _ _ =>
    obtain ⟨-, -, -, hstatus, -⟩ := writeBack_next hwb
    exact .inl hstatus
  | _ => exact .inl rfl

/-- A step ends with OK, with HALTED or in an error (R150). -/
theorem step_status {s t : State} (h : step s = .next t) :
    t.status = .ok ∨ t.status = .halted ∨ ∃ e, t = s.raise e := by
  obtain ⟨e, -, rfl⟩ | ⟨i, -, hcase⟩ := step_raise_or_execCase h
  · exact .inr (.inr ⟨e, rfl⟩)
  · exact hcase.status

theorem StepError.code_toNat_le (e : StepError) : e.code.toNat ≤ 8 := by
  cases e <;> decide

/-- The message of an error names it and the pc it was raised at (R150). -/
@[simp] theorem State.message_raise (s : State) (e : StepError) : (s.raise e).message = some (e, s.pc) := rfl

/-- Settles O17: every step answers a next state, and each of the three ways it ends gives its status and message. -/
theorem everyStepEnds : Obligations.EveryStepEnds := by
  intro s
  obtain ⟨t, hstep⟩ := step_total s
  refine ⟨t, hstep, ?_⟩
  obtain hok | hhalted | ⟨e, rfl⟩ := step_status hstep
  · simp [State.message, Status.code, hok]
  · simp [State.message, Status.code, hhalted]
  · have hcode : (Status.error e).code.toNat ≤ 8 := StepError.code_toNat_le e
    simp [hcode]

end Sys2Proof.Machine
end

section
/-! PROOF. Control flow (R112 to R118): nop (O31), hlt (O32), jmp (O33), brh (O34, O35), cal (O36) and ret
(O37, O38). -/

namespace Sys2Proof.Machine

/-! ## Steps and runs that repeat an error -/

/-- A running core whose pc is not below IMAGE_LEN (R31). -/
theorem step_outOfImage {s : State} (hrun : s.halted = false) (hpc : s.imageLen.val ≤ s.pc.toNat) :
    step s = .next (s.raise .fetchOutOfImage) := by
  rw [step_eq, if_neg (by simp [hrun]), if_pos hpc, raiseError]

/-- Once a step answers a state that steps to itself, a run stays there. -/
theorem run_of_step_fixed {M : Host.Core} {s t : M.State} (hstep : M.step s = .next t) (hfixed : M.step t = .next t)
    (n : Nat) : M.run (n + 1) s = .next t := by
  induction n generalizing s with
  | zero =>
    rw [Host.Core.run, hstep]
    rfl
  | succ n ih =>
    rw [Host.Core.run, hstep]
    exact ih hfixed

/-- A halted core raises STEP_WHILE_HALTED at every step (R153). -/
theorem run_halted {s : State} (h : s.halted = true) (n : Nat) :
    Sys2Proof.core.run (n + 1) s = .next (s.raise .stepWhileHalted) := by
  have hagain : (s.raise .stepWhileHalted).halted = true := h
  exact run_of_step_fixed (M := Sys2Proof.core) (step_halted h) (step_halted hagain) n

/-! ## nop, hlt and jmp -/

/-- Settles O31: the meaning of `nop` is this update. -/
theorem nopOnlyAdvances : Obligations.NopOnlyAdvances := fun _ => rfl

/-- Settles O32: the state after `hlt` is halted. -/
theorem hltHaltsForGood : Obligations.HltHaltsForGood :=
  ⟨by decide, fun s => ⟨rfl, run_halted (s := { s with halted := true, status := .halted, errPc := 0 }) rfl⟩⟩

/-- The word of `jmp` under the decided tables (D1, D2). -/
theorem encodeWord_jmp (a : IAddr) : encodeWord (.jmp a) = 0x2000 ||| a.setWidth 16 := by
  have hop : encodeWord (.jmp a) = 0x2000 ||| placeField 0 a := rfl
  rw [hop, placeField, BitVec.shiftLeft_zero]

theorem target_toNat (a : IAddr) : (a.setWidth 11 : PcVal).toNat = a.toNat := by
  bv_omega

/-- Settles O33: the fetch at a target past the image fails. -/
theorem jmpSetsThePc : Obligations.JmpSetsThePc :=
  fun a _ => ⟨encodeWord_jmp a, rfl, fun hrun hlen => step_outOfImage hrun ((target_toNat a).symm ▸ hlen)⟩

/-! ## brh -/

/-- When each condition holds of the flags (R116). -/
theorem condHolds_iff {k : Cond} {z c : Bool} :
    condHolds k z c = true ↔
      (k = .eq ∧ z = true) ∨ (k = .ne ∧ z = false) ∨ (k = .ge ∧ c = false) ∨ (k = .lt ∧ c = true) := by
  cases k <;> simp [condHolds]

/-- What `brh` answers: only the pc depends on the condition. -/
theorem execBrh_eq (k : Cond) (a : IAddr) (s : State) :
    execBrh k a s = .next { s with
      pc := if condHolds k s.z s.c then a.setWidth 11 else s.pc + 1, status := .ok, errPc := 0 } := by
  rw [execBrh]
  split <;> rfl

/-- Settles O34: the condition's cases, put into what `brh` answers. -/
theorem brhFollowsTheFlags : Obligations.BrhFollowsTheFlags := by
  intro k a s
  change execBrh k a s = _
  simp only [execBrh_eq, condHolds_iff]

/-- The difference of two bytes truncates to zero exactly when they are equal (R136). -/
theorem trunc8_sub_eq_zero {x y : Byte} : trunc8 (s8 x - s8 y) = 0 ↔ x = y := by
  have hdiff : trunc8 (s8 x - s8 y) = x - y := by
    rw [trunc8, Int.sub_eq_add_neg, BitVec.ofInt_add, BitVec.ofInt_neg, s8, s8, BitVec.ofInt_toInt, BitVec.ofInt_toInt,
      BitVec.sub_eq_add_neg]
  rw [hdiff, sub_eq_zero]

/-- The flags after a compare (R141): Z says that the registers are equal, C that the first is below the second. -/
theorem compare_flags {rb rc : Reg} {s t : State} (h : exec (.sub .r0 rb rc) s = .next t) :
    (t.z = true ↔ s.reg rb = s.reg rc) ∧ (t.c = true ↔ s8 (s.reg rb) < s8 (s.reg rc)) := by
  obtain ⟨hz, hc⟩ := writeBack_arithmetic_flagsOf h
  exact ⟨hz.trans trunc8_sub_eq_zero, hc.trans sub_neg⟩

/-- Settles O35: the conditions of the flags, read as the compare set them. -/
theorem branchAfterCompareIsSigned : Obligations.BranchAfterCompareIsSigned := by
  intro s t u rb rc a k hsub hbrh
  obtain ⟨hz, hc⟩ := compare_flags hsub
  obtain rfl := Host.Outcome.next.inj ((brhFollowsTheFlags k a t).symm.trans hbrh)
  simp only [← Bool.not_eq_true, hz, hc, not_lt, ne_eq]

/-! ## cal and ret -/

/-- Settles O36: room on the stack and a full stack are the two cases of the push. -/
theorem calPushesItsOwnAddress : Obligations.CalPushesItsOwnAddress := by
  refine fun a s => ⟨fun hroom => ?_, fun hfull => ?_⟩
  · have hnot : ¬ stackFull s.config.stackDepth s.stack.length = true := by
      rw [stackFull_iff]
      rintro ⟨n, hdepth, hle⟩
      exact Nat.not_lt.mpr hle (hroom n hdepth)
    exact (execCal_eq a s).trans (if_neg hnot)
  · exact (execCal_eq a s).trans (if_pos ((stackFull_iff _ _).mpr ⟨_, hfull, Nat.le_refl _⟩))

/-- A `cal` that completes has pushed its own address and jumped (R117). -/
theorem execCal_ok {a : IAddr} {s t : State} (h : execCal a s = .next t) (hok : t.status = .ok) :
    t = ({ s with stack := s.ownAddress :: s.stack }.jump a).latch .ok := by
  rw [execCal_eq] at h
  split at h
  next =>
    obtain rfl := raiseError_next.mp h
    cases hok
  next => exact complete_next.mp h

/-- One past a 10-bit address, as a value of the pc. -/
theorem target_succ (v : IAddr) : (v.setWidth 11 + 1 : PcVal) = BitVec.ofNat 11 (v.toNat + 1) := by
  bv_omega

/-- A step that reaches `ret` on an empty stack, whatever its latches were. -/
theorem step_ret_nil {s : State} (hreach : s.reaches .ret) (hstack : s.stack = []) :
    step s = .next (s.raise .stackUnderflow) :=
  (step_of_reaches hreach).trans (execRet_nil hstack)

/-- Settles O37: the pop's two cases; an error leaves the stack empty and `ret` reached, so it is raised again. -/
theorem retGoesPastTheSavedAddress : Obligations.RetGoesPastTheSavedAddress := by
  refine ⟨by decide, fun s v rest hstack => ?_, fun s hrun hpc => ?_, fun s hstack => ⟨execRet_nil hstack,
    fun hreach => ?_⟩⟩
  · rw [← target_succ]
    exact execRet_cons hstack
  · have hlen : s.imageLen.val ≤ s.pc.toNat := by
      rw [hpc]
      exact Nat.le_of_lt_succ s.imageLen.isLt
    rw [step_outOfImage hrun hlen, State.raise, hpc]
  · have hagain : (s.raise .stackUnderflow).reaches .ret := hreach
    exact run_of_step_fixed (M := Sys2Proof.core) (step_ret_nil hreach hstack) (step_ret_nil hagain hstack)

/-- The address a `cal` saves is its pc, below 1024 (R117). -/
theorem ownAddress_setWidth {s : State} (h : s.pc.toNat < 1024) : (s.ownAddress.setWidth 11 : PcVal) = s.pc := by
  rw [State.ownAddress]
  bv_omega

/-- Settles O38: the `ret` pops what the `cal` pushed. -/
theorem retUndoesCal : Obligations.RetUndoesCal := by
  intro a s t u v hpc hcal hok hsame hret
  have hstack : u.stack = s.ownAddress :: s.stack := by rw [hsame, execCal_ok hcal hok]; rfl
  obtain rfl := complete_next.mp ((execRet_cons hstack).symm.trans hret)
  exact ⟨congrArg (· + 1) (ownAddress_setWidth hpc), rfl, rfl⟩

end Sys2Proof.Machine
end

section
/-! PROOF. The port and memory instructions (R126 to R129): pld and pst (O39), mld (O40) and mst (O41). -/

namespace Sys2Proof.Machine

/-! ## The address and the write-back -/

/-- An access that the policy lets through has the truncated raw address (R59, R60). -/
theorem State.address_of_inRange {s : State} {rb : Reg} {o : Off}
    (h : s.config.eaPolicy = .wrap ∨ (0 ≤ rawEa (s.reg rb) o ∧ rawEa (s.reg rb) o ≤ 255)) :
    s.address rb o = some (trunc8 (rawEa (s.reg rb) o)) := by
  rw [State.address]
  cases hpolicy : s.config.eaPolicy with
  | wrap => exact effectiveAddress_wrap _ _
  | fault =>
    have hin := h.resolve_left (by simp [hpolicy])
    rw [effectiveAddress_fault, if_pos hin]

/-- A write-back writes its value to its destination and, the flags apart, nothing else (R24, R135). -/
theorem writeBack_wroteOnly {ra : Reg} {w : WriteBack} {s t : State} (h : writeBack ra w s = .next t) :
    wroteOnly ra w.value s t := by
  obtain ⟨hregs, hpc, -, hstatus, herr, hhalted, hstack, hdmem, hconfig, himem, hlen, hdbg⟩ := writeBack_next h
  have hread (r : Reg) : t.reg r = (s.setReg ra w.value).reg r := congrArg (·.read r) hregs
  refine ⟨?dest, fun r hr => ?others, fun a => ?memory, hstack, ⟨hconfig, himem, hlen, hdbg⟩, hpc,
    hstatus, herr, hhalted⟩
  case dest => by_cases hra : ra = .r0 <;> simp [hread, hra]
  case others => simp [hread, hr]
  case memory => rw [State.memRead, hdmem, State.memRead]

/-- A write-back without flags keeps both flags (R135). -/
theorem writeBack_plain_sameFlags {ra : Reg} {v : Byte} {s t : State} (h : writeBack ra (plain v) s = .next t) :
    sameFlags s t := by
  obtain rfl := complete_next.mp h
  exact ⟨rfl, rfl⟩

/-! ## The four instructions -/

/-- Settles O39: raising an error is this update. -/
theorem portInstructionsReportNotImplemented : Obligations.PortInstructionsReportNotImplemented :=
  fun _ _ _ => ⟨rfl, rfl⟩

/-- Settles O40: with an address, `mld` is a write-back of the byte there. -/
theorem mldLoadsTheByte : Obligations.MldLoadsTheByte := by
  intro ra rb o s hin
  have hwb := writeBack_plain ra (s.memRead (trunc8 (rawEa (s.reg rb) o))) s
  exact ⟨_, (execMld_some (State.address_of_inRange hin)).trans hwb, writeBack_wroteOnly hwb,
    writeBack_plain_sameFlags hwb⟩

/-- Settles O41: with an address, `mst` is a write of the data register there. -/
theorem mstStoresTheByte : Obligations.MstStoresTheByte := by
  intro ra rb o s hin
  have hmem (a : Byte) : ((s.memWrite (trunc8 (rawEa (s.reg rb) o)) (s.reg ra)).advance.latch .ok).memRead a =
      if a = trunc8 (rawEa (s.reg rb) o) then s.reg ra else s.memRead a := by
    rw [State.latch_memRead, State.advance_memRead, State.memRead_memWrite]
  exact ⟨_, execMst_some (State.address_of_inRange hin), (hmem _).trans (if_pos rfl),
    fun a ha => (hmem a).trans (if_neg ha), fun _ => rfl, ⟨rfl, rfl⟩, rfl, ⟨rfl, rfl, rfl, rfl⟩, rfl, rfl, rfl, rfl⟩

end Sys2Proof.Machine
end

section
/-! PROOF. The execute unit's instructions (R136 to R147): ldi (O46), adi (O47), add (O48), sub (O49), bit (O50 to O52),
rsh (O53) and the pseudo-instructions mov and lsh (O54). -/

namespace Sys2Proof.Machine

/-! ## Instruction words -/

/-- The decided word of an instruction is its opcode's word with its operand fields (D1, D2). -/
theorem encodeWord_of_opcode {i : Instr} {op : Word} (f : Form) (hform : i.form = f)
    (hop : placeField 12 (f.opcodeIn standardOpcodeMap) = op) :
    encodeWord i = op ||| i.operandWord .standard := by
  rw [← hop, ← hform]
  rfl

/-- A word of the I format under the decided layout, its parts in the spec's order (R75). -/
theorem or_fields_formatI (op : Word) (ra : Reg) (v : Byte) :
    op ||| (placeField 9 ra.toBits ||| placeField 0 v) = op ||| ra.toBits.setWidth 16 <<< 9 ||| v.setWidth 16 := by
  rw [placeField, placeField, BitVec.shiftLeft_zero, BitVec.or_assoc]

/-- A word of the R format under the decided layout, its parts in the spec's order (R77). -/
theorem or_fields_formatR (op : Word) (ra rb rc : Reg) :
    op ||| (placeField 9 ra.toBits ||| placeField 6 rb.toBits ||| placeField 0 rc.toBits) =
      op ||| ra.toBits.setWidth 16 <<< 9 ||| rb.toBits.setWidth 16 <<< 6 ||| rc.toBits.setWidth 16 := by
  rw [placeField, placeField, placeField, BitVec.shiftLeft_zero, BitVec.or_assoc, BitVec.or_assoc, BitVec.or_assoc]

/-- The word of `ldi` under the decided tables (D1, D2). -/
theorem encodeWord_ldi (ra : Reg) (v : Byte) :
    encodeWord (.ldi ra v) = 0xA000 ||| ra.toBits.setWidth 16 <<< 9 ||| v.setWidth 16 :=
  (encodeWord_of_opcode .ldi rfl (by decide)).trans (or_fields_formatI 0xA000 ra v)

/-- The word of `adi` under the decided tables (D1, D2). -/
theorem encodeWord_adi (ra : Reg) (v : Byte) :
    encodeWord (.adi ra v) = 0xB000 ||| ra.toBits.setWidth 16 <<< 9 ||| v.setWidth 16 :=
  (encodeWord_of_opcode .adi rfl (by decide)).trans (or_fields_formatI 0xB000 ra v)

/-- The word of `add` under the decided tables (D1, D2). -/
theorem encodeWord_add (ra rb rc : Reg) :
    encodeWord (.add ra rb rc) =
      0xC000 ||| ra.toBits.setWidth 16 <<< 9 ||| rb.toBits.setWidth 16 <<< 6 ||| rc.toBits.setWidth 16 :=
  (encodeWord_of_opcode .add rfl (by decide)).trans (or_fields_formatR 0xC000 ra rb rc)

/-! ## The two kinds of write-back -/

/-- What a write-back without flags does (R135). -/
theorem writeBack_plain_spec (ra : Reg) (v : Byte) (s : State) :
    ∃ t, writeBack ra (plain v) s = .next t ∧ wroteOnly ra v s t ∧ sameFlags s t :=
  have hwb := writeBack_plain ra v s
  ⟨_, hwb, writeBack_wroteOnly hwb, writeBack_plain_sameFlags hwb⟩

/-- What a write-back of an exact arithmetic result does (R135 to R137). -/
theorem writeBack_arithmetic_spec (ra : Reg) (raw : Int) (s : State) :
    ∃ t, writeBack ra (arithmetic raw) s = .next t ∧ wroteOnly ra (trunc8 raw) s t ∧ flagsOf raw t :=
  have hwb : writeBack ra (arithmetic raw) s = .next _ := writeBack_flags ra _ _ _ s
  ⟨_, hwb, writeBack_wroteOnly hwb, writeBack_arithmetic_flagsOf hwb⟩

/-! ## ldi, adi, add and sub -/

/-- Settles O46: `ldi` is a write-back of its immediate. -/
theorem ldiWritesTheImmediate : Obligations.LdiWritesTheImmediate :=
  fun ra v s => ⟨encodeWord_ldi ra v, writeBack_plain_spec ra v s⟩

/-- The range of an exact sum of two bytes read signed (R137). -/
theorem s8_add_bounds (x y : Byte) : -256 ≤ s8 x + s8 y ∧ s8 x + s8 y ≤ 254 := by
  have hx := s8_bounds x
  have hy := s8_bounds y
  omega

/-- Settles O47: `adi` is a write-back of the exact sum of its register and its immediate. -/
theorem adiAddsTheImmediate : Obligations.AdiAddsTheImmediate := by
  intro ra v s
  obtain ⟨hlow, hhigh⟩ := s8_add_bounds (s.reg ra) v
  exact ⟨encodeWord_adi ra v, hlow, hhigh, writeBack_arithmetic_spec ra _ s⟩

/-- Settles O48: `add` is a write-back of the exact sum of its sources. -/
theorem addWritesTheSum : Obligations.AddWritesTheSum := by
  intro ra rb rc s
  obtain ⟨hlow, hhigh⟩ := s8_add_bounds (s.reg rb) (s.reg rc)
  exact ⟨encodeWord_add ra rb rc, hlow, hhigh, writeBack_arithmetic_spec ra _ s⟩

/-- Settles O49: an exact difference truncates to zero when the sources are equal, and is negative when the first is the
lesser. -/
theorem subWritesTheDifference : Obligations.SubWritesTheDifference := by
  intro ra rb rc s
  obtain ⟨t, hexec, hwrote, hz, hc⟩ := writeBack_arithmetic_spec ra (s8 (s.reg rb) - s8 (s.reg rc)) s
  exact ⟨t, hexec, hwrote, ⟨hz, hc⟩, hz.trans trunc8_sub_eq_zero, hc.trans sub_neg⟩

/-! ## bit -/

/-- Settles O51: the rows of the table, selector by selector. -/
theorem selectorTruthTables : Obligations.SelectorTruthTables := by
  intro f
  cases f <;> rfl

/-- A selector's function on vectors acts on each bit position alone (R142). -/
theorem getLsbD_selectVec (f : AluSel) {n k : Nat} (p q : BitVec n) (hk : k < n) :
    (selectVec f p q).getLsbD k = selectBit f (p.getLsbD k) (q.getLsbD k) := by
  cases f <;> simp [selectVec, selectBit, hk]

/-- The top bit of a selector's result on two bytes comes from their top bits. -/
theorem msb_selectVec (f : AluSel) (p q : Byte) : (selectVec f p q).msb = selectBit f p.msb q.msb := by
  simp only [BitVec.msb_eq_getLsbD_last]
  exact getLsbD_selectVec f p q (by decide)

/-- What a write-back of a bitwise function does (R142, R144). -/
theorem writeBack_bitwise_spec (ra : Reg) (p : BitwiseCarry) (f : AluSel) (x y : Byte) (s : State) :
    ∃ t, writeBack ra (bitwise p f x y) s = .next t ∧ wroteOnly ra (selectVec f x y) s t ∧
      (t.z = true ↔ selectVec f x y = 0) ∧ t.c = bitCarry p f (selectVec f x y) :=
  have hwb : writeBack ra (bitwise p f x y) s = .next _ := writeBack_flags ra _ _ _ s
  ⟨_, hwb, writeBack_wroteOnly hwb, decide_eq_true_iff, rfl⟩

/-- Settles O50: `bit` is a write-back of the selected function, whose carry is the configured one. -/
theorem bitWritesTheSelectedFunction : Obligations.BitWritesTheSelectedFunction := by
  intro ra rb rc f s
  obtain ⟨t, hexec, hwrote, hz, hc⟩ :=
    writeBack_bitwise_spec ra s.config.bitwiseCarry f (s.reg rb) (s.reg rc) s
  refine ⟨t, _, hexec, fun _ hi => getLsbD_selectVec f _ _ hi, hwrote, hz, fun hsigned => ?_, fun hunsigned => ?_⟩
  · rw [hc, hsigned]
    exact BitVec.msb_eq_getLsbD_last _
  · rw [hc, hunsigned]
    rfl

/-- A selector's function commutes with sign extension: every bit above bit 7 of an operand is its top bit (R144). -/
theorem selectVec_signExtend (f : AluSel) (p q : Byte) (n : Nat) :
    selectVec f (p.signExtend n) (q.signExtend n) = (selectVec f p q).signExtend n := by
  apply BitVec.eq_of_getLsbD_eq
  intro k hk
  rw [getLsbD_selectVec f _ _ hk]
  simp only [BitVec.getLsbD_signExtend, hk, decide_true, Bool.true_and]
  by_cases hlow : k < 8
  · simp only [if_pos hlow, getLsbD_selectVec f p q hlow]
  · simp only [if_neg hlow, msb_selectVec]

/-- Sign extension keeps the sign. -/
theorem toInt_signExtend_neg {n : Nat} (x : Byte) (hn : 8 ≤ n) : (x.signExtend n).toInt < 0 ↔ x.msb = true := by
  rw [BitVec.toInt_signExtend_of_le hn, BitVec.msb_eq_toInt, decide_eq_true_iff]

/-- Settles O52: sign extension commutes with the function and keeps the sign; above bit 7 a zero-extended operand is 0,
so the function's bit there is F(0,0). -/
theorem bitwiseCarryReadings : Obligations.BitwiseCarryReadings := by
  intro f p q n hn
  refine ⟨selectVec_signExtend f p q n, ?_, fun k hlow hk => ?_⟩
  · rw [selectVec_signExtend]
    exact toInt_signExtend_neg _ hn.le
  · have hzero (x : Byte) : (x.setWidth n).getLsbD k = false := by
      rw [BitVec.getLsbD_setWidth, BitVec.getLsbD_of_ge x k hlow, Bool.and_false]
    rw [getLsbD_selectVec f _ _ hk, hzero, hzero]
    rfl

/-! ## rsh -/

/-- Half a byte's unsigned reading, rounded down, fits in a byte (R145). -/
theorem toNat_half (x : Byte) : (BitVec.ofNat 8 (u8 x / 2)).toNat = x.toNat / 2 := by
  have hx := u8_lt x
  rw [BitVec.toNat_ofNat, Nat.mod_eq_of_lt (by omega), u8]

/-- Halving a byte drops its bit 0 and puts a 0 above the others (R145). -/
theorem half_eq_append (x : Byte) : BitVec.ofNat 8 (u8 x / 2) = 0#1 ++ x.extractLsb' 1 7 := by
  apply BitVec.eq_of_toNat_eq
  have hx := x.isLt
  rw [toNat_half, BitVec.toNat_append, BitVec.toNat_ofNat, Nat.zero_mod, Nat.zero_shiftLeft, Nat.zero_or,
    BitVec.extractLsb'_toNat, Nat.shiftRight_one, Nat.mod_eq_of_lt (by omega)]

/-- Settles O53: `rsh` is a write-back of the halved source. -/
theorem rshHalvesTheByte : Obligations.RshHalvesTheByte := by
  intro ra rb s
  obtain ⟨t, hexec, hwrote, hflags⟩ := writeBack_plain_spec ra (BitVec.ofNat 8 (u8 (s.reg rb) / 2)) s
  exact ⟨t, _, hexec, toNat_half _, half_eq_append _, hwrote, hflags⟩

/-! ## mov and lsh -/

/-- The truncated sum of two bytes read signed is their 8-bit sum. -/
theorem trunc8_add (x y : Byte) : trunc8 (s8 x + s8 y) = x + y := by
  rw [trunc8, BitVec.ofInt_add, s8, s8, BitVec.ofInt_toInt, BitVec.ofInt_toInt]

/-- The signed reading of a byte is negative exactly when its top bit is set. -/
theorem s8_neg_iff (x : Byte) : s8 x < 0 ↔ x.getLsbD 7 = true := by
  rw [s8, ← decide_eq_true_iff (p := x.toInt < 0), ← BitVec.msb_eq_toInt, BitVec.msb_eq_getLsbD_last]

/-- An `add` whose exact sum has the sign of its first source sets C to that source's top bit. -/
theorem exec_add_of_sign {ra rb rc : Reg} {v : Byte} {s : State} (hsum : s.reg rb + s.reg rc = v)
    (hsign : s8 (s.reg rb) + s8 (s.reg rc) < 0 ↔ s8 (s.reg rb) < 0) :
    ∃ t, exec (.add ra rb rc) s = .next t ∧ wroteOnly ra v s t ∧ (t.z = true ↔ v = 0) ∧
      t.c = (s.reg rb).getLsbD 7 := by
  obtain ⟨-, -, -, t, hexec, hwrote, hz, hc⟩ := addWritesTheSum ra rb rc s
  rw [trunc8_add, hsum] at hwrote hz
  exact ⟨t, hexec, hwrote, hz, Bool.eq_iff_iff.mpr (hc.trans (hsign.trans (s8_neg_iff _)))⟩

/-- Settles O54: a byte plus 0 and a byte plus itself have the byte's sign, and the latter is the byte shifted by one. -/
theorem movAndLshSetTheFlags : Obligations.MovAndLshSetTheFlags := by
  refine fun ra rb s => ⟨exec_add_of_sign ?_ ?_, exec_add_of_sign ?_ ?_⟩
  · rw [State.reg_r0]
    exact add_zero _
  · rw [State.reg_r0, show s8 0 = 0 from rfl, add_zero]
  · rw [BitVec.shiftLeft_eq_mul_twoPow]
    bv_omega
  · omega

end Sys2Proof.Machine
end

section
/-! PROOF. Errors (R150 to R157): the order of a step's checks (O18), what an error leaves unchanged (O20), what causes
each error (O19) and that it is raised again (O21). -/

namespace Sys2Proof.Machine

/-! ## The order of the checks and the frame of an error -/

/-- Settles O18: the halted check and the fetch check, in the order of R155. -/
theorem errorChecksComeInOrder : Obligations.ErrorChecksComeInOrder :=
  fun _ => ⟨fun hhalted => step_halted hhalted, fun hrun hpc => step_outOfImage hrun hpc⟩

/-- Settles O20: OK and HALTED are no errors, and the third way a step ends is the raising of one. -/
theorem errorStepsChangeOnlyTheLatches : Obligations.ErrorStepsChangeOnlyTheLatches := by
  intro s t e hstep he
  obtain hok | hhalted | ⟨e', rfl⟩ := step_status hstep
  · cases hok.symm.trans he
  · cases hhalted.symm.trans he
  · cases he
    rfl

/-! ## The cause of each error -/

/-- The errors an instruction raises itself, each with its cause (R154). -/
inductive ExecError (s : State) : Instr → StepError → Prop where
  /-- `pld` has no port to read (R126). -/
  | pld (ra : Reg) (v : Byte) : ExecError s (.pld ra v) .notImplemented
  /-- `pst` has no port to write (R127). -/
  | pst (ra : Reg) (v : Byte) : ExecError s (.pst ra v) .notImplemented
  /-- A pop of an empty stack (R118). -/
  | ret (hstack : s.stack = []) : ExecError s .ret .stackUnderflow
  /-- A push onto a full stack (R117). -/
  | cal (a : IAddr) (hfull : stackFull s.config.stackDepth s.stack.length = true) :
      ExecError s (.cal a) .stackOverflow
  /-- A load with no address (R60). -/
  | mld (ra rb : Reg) (o : Off) (haddr : s.address rb o = none) : ExecError s (.mld ra rb o) .memOutOfRange
  /-- A store with no address (R60). -/
  | mst (ra rb : Reg) (o : Off) (haddr : s.address rb o = none) : ExecError s (.mst ra rb o) .memOutOfRange

/-- The errors of a step with their causes, in the order of its checks (R154, R155). -/
inductive StepCause (s : State) : StepError → Prop where
  /-- The core is halted (R153). -/
  | halted (hhalted : s.halted = true) : StepCause s .stepWhileHalted
  /-- The pc is past the image (R31). -/
  | outOfImage (hrun : s.halted = false) (hpc : s.imageLen.val ≤ s.pc.toNat) : StepCause s .fetchOutOfImage
  /-- The fetched word decodes to no instruction (R154). -/
  | unknownOpcode (hrun : s.halted = false) (hpc : s.pc.toNat < s.imageLen.val)
      (hdec : ∃ d, s.decode (ImageRom.word s.imem s.pc.toNat) = .error d) : StepCause s .unknownOpcode
  /-- An error of the reached instruction. -/
  | exec {i : Instr} {e : StepError} (hreach : s.reaches i) (herr : ExecError s i e) : StepCause s e

theorem exec_of_execError {s : State} {i : Instr} {e : StepError} (h : ExecError s i e) :
    exec i s = .next (s.raise e) := by
  cases h with
  | pld ra v | pst ra v => rfl
  | ret hstack => exact execRet_nil hstack
  | cal a hfull => exact (execCal_eq a s).trans (if_pos hfull)
  | mld ra rb o haddr => exact execMld_none haddr
  | mst ra rb o haddr => exact execMst_none haddr

/-- An instruction that ends in an error has that error's cause. -/
theorem execError_of_status {s t : State} {i : Instr} {e : StepError} (h : exec i s = .next t)
    (he : t.status = .error e) : ExecError s i e := by
  cases i with
  | nop | hlt | jmp | ldi | adi | add | sub | bit | rsh =>
    cases h
    cases he
  | brh k a =>
    cases (execBrh_eq k a s).symm.trans h
    cases he
  | pld ra v =>
    cases h
    cases he
    exact .pld ra v
  | pst ra v =>
    cases h
    cases he
    exact .pst ra v
  | cal a =>
    by_cases hfull : stackFull s.config.stackDepth s.stack.length = true
    · cases (exec_of_execError (.cal a hfull)).symm.trans h
      cases he
      exact .cal a hfull
    · cases ((execCal_eq a s).trans (if_neg hfull)).symm.trans h
      cases he
  | ret =>
    cases hstack : s.stack with
    | nil =>
      cases (execRet_nil hstack).symm.trans h
      cases he
      exact .ret hstack
    | cons v rest =>
      cases (execRet_cons hstack).symm.trans h
      cases he
  | mld ra rb o =>
    cases haddr : s.address rb o with
    | none =>
      cases (execMld_none haddr).symm.trans h
      cases he
      exact .mld ra rb o haddr
    | some a =>
      cases (execMld_some haddr).symm.trans h
      cases he
  | mst ra rb o =>
    cases haddr : s.address rb o with
    | none =>
      cases (execMst_none haddr).symm.trans h
      cases he
      exact .mst ra rb o haddr
    | some a =>
      cases (execMst_some haddr).symm.trans h
      cases he

/-- A running core whose fetched word decodes to no instruction (R154). -/
theorem step_undecodable {s : State} (hrun : s.halted = false) (hpc : s.pc.toNat < s.imageLen.val)
    (hdec : ∃ d, s.decode (ImageRom.word s.imem s.pc.toNat) = .error d) :
    step s = .next (s.raise .unknownOpcode) := by
  obtain ⟨d, hd⟩ := hdec
  rw [step_eq, if_neg (by simp [hrun]), if_neg (by omega), hd, raiseError]

theorem step_of_cause {s : State} {e : StepError} (h : StepCause s e) : step s = .next (s.raise e) := by
  cases h with
  | halted hhalted => exact step_halted hhalted
  | outOfImage hrun hpc => exact step_outOfImage hrun hpc
  | unknownOpcode hrun hpc hdec => exact step_undecodable hrun hpc hdec
  | exec hreach herr => exact (step_of_reaches hreach).trans (exec_of_execError herr)

/-- A step ends in an error exactly when that error has its cause. -/
theorem step_error_iff {s t : State} (hstep : step s = .next t) {e : StepError} :
    t.status = .error e ↔ StepCause s e := by
  refine ⟨fun he => ?_, fun hcause => ?_⟩
  · obtain ⟨hhalted, rfl⟩ | ⟨hrun, hpc, rfl⟩ | ⟨hrun, hpc, hdec, rfl⟩ | ⟨hrun, hpc, i, hdec, hexec⟩ :=
      step_cases hstep
    · cases he
      exact .halted hhalted
    · cases he
      exact .outOfImage hrun hpc
    · cases he
      exact .unknownOpcode hrun hpc hdec
    · exact .exec ⟨hrun, hpc, hdec⟩ (execError_of_status hexec he)
  · cases (step_of_cause hcause).symm.trans hstep
    rfl

/-! ## The causes as R154 lists them -/

/-- A word decodes to no instruction exactly when its opcode is not in the opcode map. -/
theorem exists_decodeWith_error {t : EncodingTables} {w : Word} :
    (∃ d, decodeWith t w = .error d) ↔ t.opcodeMap[(fieldAt t.layout.op 4 w).toNat]? = none := by
  refine ⟨fun ⟨d, hd⟩ => ?_, fun hnone => ⟨_, decodeWith_none hnone⟩⟩
  cases hf : t.opcodeMap[(fieldAt t.layout.op 4 w).toNat]? with
  | none => rfl
  | some f => cases (decodeWith_some hf).symm.trans hd

/-- A stack within its capacity is full exactly at its capacity (R34). -/
theorem stackFull_iff_of_bounded {depth : Option Nat} {d : Nat} (h : ∀ n, depth = some n → d ≤ n) :
    stackFull depth d = true ↔ depth = some d := by
  rw [stackFull_iff]
  refine ⟨fun ⟨n, hdepth, hle⟩ => ?_, fun hdepth => ⟨d, hdepth, Nat.le_refl d⟩⟩
  rw [hdepth, Nat.le_antisymm hle (h n hdepth)]

/-- An access has no address exactly when the policy is `fault` and the raw address is out of range (R60). -/
theorem State.address_eq_none {s : State} {rb : Reg} {o : Off} :
    s.address rb o = none ↔ s.config.eaPolicy = .fault ∧ (rawEa (s.reg rb) o < 0 ∨ 255 < rawEa (s.reg rb) o) := by
  rw [State.address]
  cases s.config.eaPolicy with
  | wrap => simp
  | fault => simp [effectiveAddress_fault_eq_none]

section
variable {s : State}

theorem stepCause_stepWhileHalted : StepCause s .stepWhileHalted ↔ s.halted = true := by
  refine ⟨fun h => ?_, .halted⟩
  cases h with
  | halted hhalted => exact hhalted
  | exec _ herr => cases herr

theorem stepCause_fetchOutOfImage :
    StepCause s .fetchOutOfImage ↔ s.halted = false ∧ s.imageLen.val ≤ s.pc.toNat := by
  refine ⟨fun h => ?_, fun ⟨hrun, hpc⟩ => .outOfImage hrun hpc⟩
  cases h with
  | outOfImage hrun hpc => exact ⟨hrun, hpc⟩
  | exec _ herr => cases herr

theorem stepCause_unknownOpcode :
    StepCause s .unknownOpcode ↔ s.halted = false ∧ s.pc.toNat < s.imageLen.val ∧
      s.config.tables.opcodeMap[(fieldAt s.config.tables.layout.op 4
        (ImageRom.word s.imem s.pc.toNat)).toNat]? = none := by
  refine ⟨fun h => ?_, fun ⟨hrun, hpc, hnone⟩ => .unknownOpcode hrun hpc (exists_decodeWith_error.mpr hnone)⟩
  cases h with
  | unknownOpcode hrun hpc hdec => exact ⟨hrun, hpc, exists_decodeWith_error.mp hdec⟩
  | exec _ herr => cases herr

/-- Under legal tables every word decodes, so UNKNOWN_OPCODE has no cause (R89). -/
theorem not_stepCause_unknownOpcode (h : s.config.tables.wf = true) : ¬ StepCause s .unknownOpcode := by
  intro hcause
  obtain ⟨i, hdec, -⟩ := exists_decodeWith h (ImageRom.word s.imem s.pc.toNat)
  cases hcause with
  | unknownOpcode _ _ herror =>
    obtain ⟨d, hd⟩ := herror
    cases hdec.symm.trans hd
  | exec _ herr => cases herr

theorem stepCause_notImplemented :
    StepCause s .notImplemented ↔ ∃ ra v, s.reaches (.pld ra v) ∨ s.reaches (.pst ra v) := by
  refine ⟨fun h => ?_, ?_⟩
  · cases h with
    | exec hreach herr =>
      cases herr with
      | pld ra v => exact ⟨ra, v, .inl hreach⟩
      | pst ra v => exact ⟨ra, v, .inr hreach⟩
  · rintro ⟨ra, v, hreach | hreach⟩
    · exact .exec hreach (.pld ra v)
    · exact .exec hreach (.pst ra v)

theorem stepCause_stackUnderflow : StepCause s .stackUnderflow ↔ s.reaches .ret ∧ s.stack = [] := by
  refine ⟨fun h => ?_, fun ⟨hreach, hstack⟩ => .exec hreach (.ret hstack)⟩
  cases h with
  | exec hreach herr =>
    cases herr with
    | ret hstack => exact ⟨hreach, hstack⟩

theorem stepCause_stackOverflow :
    StepCause s .stackOverflow ↔
      (∃ a, s.reaches (.cal a)) ∧ stackFull s.config.stackDepth s.stack.length = true := by
  refine ⟨fun h => ?_, fun ⟨⟨a, hreach⟩, hfull⟩ => .exec hreach (.cal a hfull)⟩
  cases h with
  | exec hreach herr =>
    cases herr with
    | cal a hfull => exact ⟨⟨a, hreach⟩, hfull⟩

theorem stepCause_memOutOfRange :
    StepCause s .memOutOfRange ↔
      ∃ ra rb o, (s.reaches (.mld ra rb o) ∨ s.reaches (.mst ra rb o)) ∧ s.address rb o = none := by
  refine ⟨fun h => ?_, ?_⟩
  · cases h with
    | exec hreach herr =>
      cases herr with
      | mld ra rb o haddr => exact ⟨ra, rb, o, .inl hreach, haddr⟩
      | mst ra rb o haddr => exact ⟨ra, rb, o, .inr hreach, haddr⟩
  · rintro ⟨ra, rb, o, hreach | hreach, haddr⟩
    · exact .exec hreach (.mld ra rb o haddr)
    · exact .exec hreach (.mst ra rb o haddr)

end

/-- Settles O19: an error is reported exactly for its cause, and each cause is R154's. -/
theorem errorsHaveExactlyTheirCauses : Obligations.ErrorsHaveExactlyTheirCauses := by
  intro s t hbounded hstep
  refine ⟨fun e he => ?_, (step_error_iff hstep).trans stepCause_stepWhileHalted,
    (step_error_iff hstep).trans stepCause_fetchOutOfImage, (step_error_iff hstep).trans stepCause_unknownOpcode,
    fun hwf he => not_stepCause_unknownOpcode hwf ((step_error_iff hstep).mp he),
    (step_error_iff hstep).trans stepCause_notImplemented, (step_error_iff hstep).trans stepCause_stackUnderflow,
    ?_, ?_⟩
  · rw [errorStepsChangeOnlyTheLatches s t e hstep he]
  · rw [step_error_iff hstep, stepCause_stackOverflow, stackFull_iff_of_bounded hbounded]
  · rw [step_error_iff hstep, stepCause_memOutOfRange]
    simp only [State.address_eq_none, rawEa]
    exact ⟨fun ⟨ra, rb, o, hreach, hpolicy, hout⟩ => ⟨hpolicy, ra, rb, o, hreach, hout⟩,
      fun ⟨hpolicy, ra, rb, o, hreach, hout⟩ => ⟨ra, rb, o, hreach, hpolicy, hout⟩⟩

/-! ## An error is raised again -/

/-- An error raised before changes nothing of what an instruction does: none reads the latches, and each way of ending
writes both. -/
theorem exec_raise (i : Instr) (s : State) (e : StepError) : exec i (s.raise e) = exec i s := by
  cases i with
  | brh k a => exact (execBrh_eq k a (s.raise e)).trans (execBrh_eq k a s).symm
  | _ => rfl

/-- A step after an error does what a step before it does. -/
theorem step_raise (s : State) (e : StepError) : step (s.raise e) = step s := by
  have hraise (e' : StepError) : raiseError e' (s.raise e) = raiseError e' s := rfl
  have hdecode (w : Word) : (s.raise e).decode w = s.decode w := rfl
  simp only [step_eq, State.raise_halted, State.raise_imageLen, State.raise_pc, State.raise_imem, hraise, hdecode,
    exec_raise]

/-- Settles O21: the state after an error steps as the one before it, hence to itself. -/
theorem errorsRepeatUntilReset : Obligations.ErrorsRepeatUntilReset := by
  intro s t e hstep he
  obtain rfl : t = s.raise e := errorStepsChangeOnlyTheLatches s t e hstep he
  have hfixed : step (s.raise e) = .next (s.raise e) := (step_raise s e).trans hstep
  refine ⟨fun n => ?_, State.resetBlock_status _⟩
  cases n with
  | zero => rfl
  | succ n => exact run_of_step_fixed (M := Sys2Proof.core) hfixed hfixed n

end Sys2Proof.Machine
end

section
/-! PROOF. The debug correlator (R160, R161): what a load puts in it (O12), and that no step depends on it (O29). -/

namespace Sys2Proof.Machine

/-! ## The lookup -/

/-- When the lookup answers a line (R161). -/
theorem DebugRom.lookup_eq_some {m : DebugRom} {p : PcVal} {l : Nat} :
    DebugRom.lookup m p = some l ↔ p.toNat ≤ 1023 ∧ Store.get none m p.toNat = some l := by
  rw [DebugRom.lookup, imageMax, Option.ite_none_right_eq_some, Nat.lt_succ_iff]

/-- The lookup answers nothing where DBG holds nothing. -/
theorem DebugRom.lookup_eq_none {m : DebugRom} {p : PcVal} (h : Store.get none m p.toNat = none) :
    DebugRom.lookup m p = none := by
  rw [DebugRom.lookup, h, ite_self]

/-- Of entries at distinct addresses each is read back at its own. -/
theorem get_fillLines_mem (m : DebugRom) {es : List LineEntry} (hdistinct : (es.map LineEntry.address).Nodup)
    {e : LineEntry} (he : e ∈ es) : Store.get none (fillLines m es) e.address = some e.line := by
  induction es generalizing m with
  | nil => cases he
  | cons f es ih =>
    rw [List.map_cons, List.nodup_cons] at hdistinct
    obtain ⟨hfirst, hrest⟩ := hdistinct
    rw [fillLines]
    cases he with
    | head => rw [get_fillLines_other _ _ _ hfirst, Store.get_set_same]
    | tail _ hmem => exact ih _ hrest hmem

/-- Settles O12: a load fills an empty DBG with the entries, whose addresses are DBG's. -/
theorem loadFillsTheDebugRom : Obligations.LoadFillsTheDebugRom := by
  intro s t img hload hdistinct
  obtain ⟨hfits, rfl⟩ := State.load_some.mp hload
  obtain ⟨-, hlines⟩ := (Image.fits_iff _ _).mp hfits
  refine ⟨fun e he p hp => DebugRom.lookup_eq_some.mpr ?_, fun p hp => DebugRom.lookup_eq_none ?_⟩
  · obtain ⟨haddr, -⟩ := hlines e he
    rw [hp]
    exact ⟨Nat.le_of_lt_succ haddr, get_fillLines_mem [] hdistinct he⟩
  · rw [get_fillLines_other _ _ _ hp, Store.get_nil]

/-! ## Execution under another DBG -/

/-- `s` with the debug correlator ROM `d`. -/
def State.withDbg (s : State) (d : DebugRom) : State := { s with dbg := d }

theorem transparent_withDbg (d : DebugRom) : Transparent fun s => s.withDbg d where
  config_eq _ := rfl
  reg_eq _ _ := rfl
  memRead_eq _ _ := rfl
  setReg_comm _ _ _ := rfl
  memWrite_comm _ _ _ := rfl
  jump_comm _ _ := rfl
  advance_comm _ := rfl
  latch_comm _ _ := rfl
  raise_comm _ _ := rfl
  halt_comm _ := rfl

section
variable (s : State) (d : DebugRom)

@[simp] theorem State.withDbg_config : (s.withDbg d).config = s.config := rfl
@[simp] theorem State.withDbg_stack : (s.withDbg d).stack = s.stack := rfl

theorem execCal_withDbg (addr : IAddr) :
    execCal addr (s.withDbg d) = outcomeMap (fun t => t.withDbg d) (execCal addr s) := by
  rw [execCal_eq, execCal_eq, State.withDbg_config, State.withDbg_stack]
  split <;> rfl

theorem execRet_withDbg : execRet (s.withDbg d) = outcomeMap (fun t => t.withDbg d) (execRet s) := by
  cases hstack : s.stack with
  | nil => rw [execRet_nil hstack, execRet_nil ((s.withDbg_stack d).trans hstack)]; rfl
  | cons v rest => rw [execRet_cons hstack, execRet_cons ((s.withDbg_stack d).trans hstack)]; rfl

/-- Every instruction carries DBG along. -/
theorem exec_withDbg (i : Instr) : exec i (s.withDbg d) = outcomeMap (fun t => t.withDbg d) (exec i s) := by
  by_cases hcal : i.form = .cal
  · obtain ⟨addr, rfl⟩ := Instr.form_eq_cal hcal
    exact execCal_withDbg s d addr
  by_cases hret : i.form = .ret
  · obtain rfl := Instr.form_eq_ret hret
    exact execRet_withDbg s d
  exact (transparent_withDbg d).exec_comm s hcal hret (fun _ _ _ _ => rfl) fun _ => ⟨rfl, rfl⟩

end

/-- Every step carries DBG along: no check looks at it, and no instruction. -/
theorem step_withDbg {s t : State} (h : step s = .next t) (d : DebugRom) :
    step (s.withDbg d) = .next (t.withDbg d) := by
  obtain ⟨hhalted, rfl⟩ | ⟨hrun, hpc, rfl⟩ | ⟨hrun, hpc, hdec, rfl⟩ | ⟨hrun, hpc, i, hdec, hexec⟩ :=
    step_cases h
  · exact step_halted (s := s.withDbg d) hhalted
  · exact step_outOfImage (s := s.withDbg d) hrun hpc
  · exact step_undecodable (s := s.withDbg d) hrun hpc hdec
  · have hreach : (s.withDbg d).reaches i := ⟨hrun, hpc, hdec⟩
    rw [step_of_reaches hreach, exec_withDbg, hexec, outcomeMap]

/-- Settles O29: the lookup's two conditions, at 1024 and in an empty DBG too, and the step under another DBG. -/
theorem debugRomIsNeverRead : Obligations.DebugRomIsNeverRead :=
  ⟨fun _ _ _ => DebugRom.lookup_eq_some, fun _ => rfl, fun _ => DebugRom.lookup_eq_none rfl, fun _ _ => rfl,
    fun _ _ d hstep => step_withDbg hstep d⟩

end Sys2Proof.Machine
end

section
/-! PROOF. Reset and load (R170 to R173): what a reset sets (O9) and forgets (O10), what a load places (O11), and that
the state after a load has the invariant (O14). -/

namespace Sys2Proof.Machine

/-! ## Reset -/

/-- The register file of the reset state is all zero, r0 included (R22, R43). -/
theorem RegFile.read_reset (r : Reg) : RegFile.read State.reset.regs r = 0 := by
  cases r <;> rfl

@[simp] theorem State.resetBlock_reg (s : State) (r : Reg) : s.resetBlock.reg r = 0 := RegFile.read_reset r

@[simp] theorem State.resetBlock_memRead (s : State) (a : Byte) : s.resetBlock.memRead a = 0 := Store.get_nil _ a.toNat

theorem sameFixed_resetBlock (s : State) : sameFixed s s.resetBlock := ⟨rfl, rfl, rfl, rfl⟩

/-- Settles O9, item by item. -/
theorem resetSetsEveryItem : Obligations.ResetSetsEveryItem := fun s =>
  ⟨rfl, s.resetBlock_reg, rfl, rfl, rfl, s.resetBlock_memRead, rfl, rfl, rfl, sameFixed_resetBlock s⟩

/-- A reset reads only what no instruction writes. -/
theorem resetBlock_eq_of_sameFixed {s t : State} (h : sameFixed s t) : t.resetBlock = s.resetBlock := by
  obtain ⟨hconfig, himem, hlen, hdbg⟩ := h
  rw [State.resetBlock, hconfig, himem, hlen, hdbg, ← State.resetBlock]

theorem resetBlock_resetBlock (s : State) : s.resetBlock.resetBlock = s.resetBlock :=
  resetBlock_eq_of_sameFixed (sameFixed_resetBlock s)

/-- Settles O10: neither a reset nor a run writes what a reset reads. -/
theorem resetForgetsTheSession : Obligations.ResetForgetsTheSession :=
  ⟨resetBlock_resetBlock, fun _ _ hsame => resetBlock_eq_of_sameFixed hsame,
    fun n s t hrun => resetBlock_eq_of_sameFixed (programIsNeverWritten n s t hrun)⟩

/-- The state after a reset has the invariant where the parts that a reset keeps are well formed. -/
theorem State.resetBlock_inv {s : State} (hconfig : s.config.wf = true)
    (himem : Store.wf (0 : Word) imageMax s.imem = true)
    (hdbg : Store.wf (none : Option Nat) imageMax s.dbg = true) : s.resetBlock.Inv where
  config_wf := hconfig
  dmem_wf := Memory.reset_wf
  imem_wf := himem
  dbg_wf := hdbg
  pc_legal := Nat.zero_le _
  stack_bounded _ _ := Nat.zero_le _
  halted_iff := by simp
  errPc_error h := by simp at h
  errPc_other _ := rfl

/-! ## Load -/

/-- `s` with an image written into IMEM, IMAGE_LEN and DBG: a load before its reset (R173). -/
def State.withImage (s : State) (img : Image) : State :=
  { s with
    imem := fillWords [] 0 img.words
    imageLen := Fin.ofNat 1025 img.words.length
    dbg := fillLines [] img.lines }

/-- A load is taken exactly where the image fits, and ends in a reset. -/
theorem State.load_eq_some {s t : State} {img : Image} :
    s.load img = some t ↔ img.fits s.config = true ∧ t = (s.withImage img).resetBlock :=
  State.load_some

theorem State.load_of_fits {s : State} {img : Image} (h : img.fits s.config = true) :
    s.load img = some (s.withImage img).resetBlock :=
  State.load_eq_some.mpr ⟨h, rfl⟩

theorem State.load_of_too_long {s : State} {img : Image} (h : 1024 < img.words.length) : s.load img = none := by
  rw [Option.eq_none_iff_forall_ne_some]
  intro t hload
  obtain ⟨hfits, -⟩ := State.load_eq_some.mp hload
  obtain ⟨hlen, -⟩ := (Image.fits_iff _ _).mp hfits
  omega

/-- In an empty IMEM filled from address 0, word `k` of the image stands at address `k`. -/
theorem word_fillWords {ws : List Word} {k : Nat} {w : Word} (h : ws[k]? = some w) :
    ImageRom.word (fillWords [] 0 ws) k = w := by
  obtain ⟨hk, -⟩ := List.getElem?_eq_some_iff.mp h
  rw [ImageRom.word, get_fillWords, if_pos ⟨Nat.zero_le k, by omega⟩, Nat.sub_zero, List.getD, h, Option.getD_some]

/-- The length of an image that fits is a value of IMAGE_LEN. -/
theorem State.withImage_imageLen_val {s : State} {img : Image} (h : img.words.length ≤ 1024) :
    (s.withImage img).imageLen.val = img.words.length :=
  Nat.mod_eq_of_lt (Nat.lt_succ_of_le h)

/-- Settles O11: an image is taken exactly where it fits, and what a load places outlives the reset that ends it. -/
theorem loadPlacesTheImage : Obligations.LoadPlacesTheImage := by
  intro s img
  refine ⟨State.load_of_too_long, fun hlen hlines => ?_, fun t hload => ?_⟩
  · exact ⟨_, State.load_of_fits ((Image.fits_iff _ _).mpr ⟨hlen, hlines⟩)⟩
  · obtain ⟨hfits, rfl⟩ := State.load_eq_some.mp hload
    obtain ⟨hlen, -⟩ := (Image.fits_iff _ _).mp hfits
    exact ⟨fun _ _ => word_fillWords, State.withImage_imageLen_val (s := s) hlen, rfl, resetBlock_resetBlock _⟩

/-- Settles O14: a load that is taken fills both ROMs in canonical form, and its reset does the rest. -/
theorem loadedStateIsGood : Obligations.LoadedStateIsGood := by
  intro s t img hwf hload
  obtain ⟨hfits, rfl⟩ := State.load_eq_some.mp hload
  obtain ⟨hlen, hlines⟩ := (Image.fits_iff _ _).mp hfits
  have himem : Store.wf (0 : Word) imageMax (fillWords [] 0 img.words) = true :=
    fillWords_wf img.words (Store.wf_nil _ _) (by rwa [Nat.zero_add])
  have hdbg : Store.wf (none : Option Nat) imageMax (fillLines [] img.lines) = true :=
    fillLines_wf img.lines (Store.wf_nil _ _) fun e he => (hlines e he).1
  exact State.resetBlock_inv hwf himem hdbg

end Sys2Proof.Machine
end

section
/-! PROOF. Sample words (R81, R88): one comparison of words says what a word decodes to (O5). -/

namespace Sys2Proof

/-- A word decodes to exactly the instruction whose encoding it is once its ignored bits are cleared (R88). -/
theorem decodeWith_eq_ok_iff {t : EncodingTables} (h : t.wf = true) {w : Word} {i : Instr} :
    decodeWith t w = .ok i ↔ encodeWith t i = w &&& i.form.format.usedBits t.layout := by
  refine ⟨encodeWith_of_decodeWith h, fun hword => ?_⟩
  have hi := decodeWith_encodeWith h i
  exact decodeWith_of_used h hi (hword.symm.trans (encodeWith_of_decodeWith h hi))

theorem decodeWord_eq_ok_iff {w : Word} {i : Instr} :
    decodeWord w = .ok i ↔ encodeWord i = w &&& i.form.format.usedBits .standard :=
  decodeWith_eq_ok_iff standard_wf

/-- Settles O5: each listed instruction is encoded as its sample word with the ignored bits cleared. -/
theorem sampleWordsDecode : Obligations.SampleWordsDecode := by
  simp only [Obligations.SampleWordsDecode, decodeWord_eq_ok_iff]
  decide

end Sys2Proof
end
